-- ==== Sys2Proof/Word.lean ====
section
/-! DEFINITION. The plain value types of the Norma core. No value of the block is a bit vector (R17): a
register value `RVal` and a label are a `Nat`, a jump target and a program counter value are an `Int`
(R10), and the bound of `REG_BOUND` is a predicate on values (`RegBound.holds`). They are written `Nat`
and `Int` throughout; the one type with a name of its own is text. -/

namespace Sys2Proof

/-- A piece of program text, one character after another (R59). -/
abbrev Text := List Char

end Sys2Proof
end

