-- ==== Sys2Proof/Syntax.lean ====
section
/-! DEFINITION. The instruction set and the data the decoder and the instruction memory are made of. -/

namespace Sys2Proof

/-- The eight register names, in the canonical order of R25. -/
inductive Reg where
  | A | B | C | D | E | F | G | H
  deriving DecidableEq, Repr

/-- Every register name once, in the order of R25; there are `NUM_REGS` = 8 of them (R9). -/
def Reg.all : List Reg := [.A, .B, .C, .D, .E, .F, .G, .H]

/-- The three instructions (R2), one constructor per row of the opcode table. These are the decoded
records of R37 and R75: the label is the key under which a record is stored, not a part of it. -/
inductive Instr where
  /-- `ADD r t`, the record `INC(r, t)` (R105). -/
  | add (r : Reg) (t : Int)
  /-- `SUB r t`, the record `DEC(r, t)` (R106). -/
  | sub (r : Reg) (t : Int)
  /-- `ZER r t0 t1`, the record `TZ(r, t0, t1)`: `t0` if the register is zero, else `t1` (R107). -/
  | zer (r : Reg) (t0 t1 : Int)
  deriving DecidableEq, Repr

/-- The three operations of the source's record (R37). -/
inductive Operation where
  | increment | decrement | testZero
  deriving DecidableEq, Repr

/-- How many targets an operation carries (R37). -/
def Operation.arity : Operation → Nat
  | .increment => 1
  | .decrement => 1
  | .testZero => 2

/-- The one register an instruction names (R28). -/
def Instr.register : Instr → Reg
  | .add r _ => r
  | .sub r _ => r
  | .zer r _ _ => r

/-- The targets an instruction names, the if-zero target first (R37). -/
def Instr.targets : Instr → List Int
  | .add _ t => [t]
  | .sub _ t => [t]
  | .zer _ t0 t1 => [t0, t1]

/-- The operation of an instruction (R37, R83). -/
def Instr.operation : Instr → Operation
  | .add _ _ => .increment
  | .sub _ _ => .decrement
  | .zer _ _ _ => .testZero

/-- The source's own instruction record (R37), with the label inside and the targets as a sequence. -/
structure SourceRecord where
  label : Int
  operation : Operation
  register : Reg
  targets : List Int
  deriving DecidableEq, Repr

/-- The instruction memory `PROG` (R38, R45): whole records keyed by label. `Program.WF` says which
of these lists are programs. -/
structure Program where
  entries : List (Nat × Instr)
  deriving DecidableEq, Repr

/-- The sub-reasons of `MalformedLine` (R80). -/
inductive SubReason where
  | noSeparator | badLabel | negativeLabel | missingField | badTarget
  deriving DecidableEq, Repr

/-- The kinds of a load diagnostic (R80, R109). The sub-reason stands inside `malformedLine`, so that it
is empty for the others by construction. -/
inductive DiagKind where
  | malformedLine (sub : SubReason)
  | unknownOperation
  | unknownRegister
  | arityMismatch
  | duplicateLabel
  deriving DecidableEq, Repr

/-- One load diagnostic (R80). -/
structure Diagnostic where
  kind : DiagKind
  /-- Counted from 1, blank and comment lines included (R59). -/
  lineNumber : Nat
  /-- The line's label where step 2 accepted it. -/
  label : Option Nat
  /-- The line as read. -/
  text : Text
  deriving DecidableEq, Repr

/-- What one line decodes to (R74). -/
inductive LineResult where
  | skip
  | err (kind : DiagKind) (label : Option Nat)
  | ok (label : Nat) (instr : Instr)
  deriving DecidableEq, Repr

/-- The load port's result (R81). -/
inductive LoadResult where
  | loaded (program : Program) (diagnostics : List Diagnostic)
  | missingSource
  | emptyProgram (diagnostics : List Diagnostic)
  | duplicateLabel (diagnostics : List Diagnostic)
  /-- `refuse(NonAsciiSource)`: the model gives such a source no meaning (R60). -/
  | nonAsciiSource
  deriving DecidableEq, Repr

/-- An initial register value: given as text or as an integer (R92). -/
inductive InitValue where
  | text (t : Text)
  | int (v : Int)
  deriving DecidableEq, Repr

/-- An initial-register entry: a key and a value (R92). -/
structure InitEntry where
  key : Text
  value : InitValue
  deriving DecidableEq, Repr

/-- The initial-register warnings (R93, R109). -/
inductive InitWarning where
  | unknownInitialRegister (key : Text)
  | invalidInitialValue (register : Reg) (value : InitValue)
  deriving DecidableEq, Repr

end Sys2Proof
end

