-- ==== Sys2Proof/Config.lean ====
section
/-! DEFINITION. The implementation parameters of the block (R8, R11 to R16), as plain data, and the one
value the spec leaves uninterpreted. -/

namespace Sys2Proof

/-- `REG_BOUND` (R8): the register value domain. -/
inductive RegBound where
  | unbounded
  | bits (w : Nat)
  deriving DecidableEq, Repr

/-- `DUPLICATE_POLICY` (R12). -/
inductive DuplicatePolicy where
  | lastWins
  | reject
  deriving DecidableEq, Repr

/-- `NEG_INIT_POLICY` (R13). -/
inductive NegInitPolicy where
  | zeroWithWarning
  | refuse
  deriving DecidableEq, Repr

/-- `NON_ASCII_POLICY` (R15): it has one value. -/
inductive NonAsciiPolicy where
  | refuseLoad
  deriving DecidableEq, Repr

/-- `DESCRIBE` (R16), which is a function: either the spec's default, the canonical form of R88, or
the implementation's own text, about which nothing is known (D25, I7; log 2). -/
inductive DescribePolicy where
  | canonical
  | implementation
  deriving DecidableEq, Repr

/-- The parameters an implementation fixes. A machine state holds them (log 1); no step changes them. -/
structure Config where
  regBound : RegBound
  commentChar : Char
  duplicatePolicy : DuplicatePolicy
  negInitPolicy : NegInitPolicy
  abortSupported : Bool
  nonAsciiPolicy : NonAsciiPolicy
  describe : DescribePolicy
  deriving DecidableEq, Repr

/-- The defaults the spec gives (R8, R11 to R16). -/
def Config.default : Config where
  regBound := .unbounded
  commentChar := '#'
  duplicatePolicy := .lastWins
  negInitPolicy := .zeroWithWarning
  abortSupported := false
  nonAsciiPolicy := .refuseLoad
  describe := .canonical

/-- FREE VALUE (log 2): the description text of an implementation that does not use the canonical form
(R16, D25, I7). No claim may depend on it. -/
opaque Config.freeDescription : Nat → Instr → Text

end Sys2Proof
end

