-- ==== Sys2Proof/Machine/Text.lean ====
section
/-! DEFINITION. The text operations of R21 and R64, and integer literals (R62). -/

namespace Sys2Proof.Machine

/-- The ASCII characters, the only ones the decoder admits (R60). -/
def isAscii (c : Char) : Bool := c.toNat ≤ 0x7F

/-- Whitespace (R64): SP, HT, LF, VT, FF, CR. -/
def isWhitespace (c : Char) : Bool :=
  c.toNat == 0x20 || (0x09 ≤ c.toNat && c.toNat ≤ 0x0D)

/-- An ASCII decimal digit (R62). -/
def isDigit (c : Char) : Bool := 0x30 ≤ c.toNat && c.toNat ≤ 0x39

/-- An ASCII lower-case letter. -/
def isLower (c : Char) : Bool := 0x61 ≤ c.toNat && c.toNat ≤ 0x7A

/-- An ASCII letter. -/
def isLetter (c : Char) : Bool := isLower c || (0x41 ≤ c.toNat && c.toNat ≤ 0x5A)

/-- `a`..`z` to `A`..`Z`, every other character unchanged (R21). -/
def upperChar (c : Char) : Char := if isLower c then Char.ofNat (c.toNat - 0x20) else c

/-- `upper(s)` (R21). -/
def upper (s : Text) : Text := s.map upperChar

/-- A text without its leading whitespace. -/
def trimLeft (s : Text) : Text := s.dropWhile isWhitespace

/-- A text without its trailing whitespace. -/
def trimRight (s : Text) : Text := (s.reverse.dropWhile isWhitespace).reverse

/-- `trim(s)` (R64). -/
def trim (s : Text) : Text := trimRight (trimLeft s)

/-- `s` up to its first `c`, all of it where it holds none (R65). -/
def cutAt (c : Char) (s : Text) : Text := s.takeWhile (fun d => d != c)

/-- `split_first(s, c)` (R21): what stands before the first `c` and after it. -/
def splitFirst (c : Char) : Text → Option (Text × Text)
  | [] => none
  | d :: s =>
    if d == c then some ([], s)
    else
      match splitFirst c s with
      | none => none
      | some (before, after) => some (d :: before, after)

/-- A text that does not go on with a further character of a token. -/
def endsToken : Text → Bool
  | [] => true
  | c :: _ => isWhitespace c

/-- `c` put before the first of some tokens. -/
def extendToken (c : Char) : List Text → List Text
  | [] => [[c]]
  | t :: ts => (c :: t) :: ts

/-- `tokens(s)` (R21, R68): the pieces between runs of whitespace, empty pieces dropped. -/
def tokens : Text → List Text
  | [] => []
  | c :: s =>
    if isWhitespace c then tokens s
    else if endsToken s then [c] :: tokens s
    else extendToken c (tokens s)

/-- One or more ASCII decimal digits and nothing else. -/
def isDigits (s : Text) : Bool := !s.isEmpty && s.all isDigit

/-- A text without the one sign it may begin with (R62). -/
def dropSign : Text → Text
  | '+' :: s => s
  | '-' :: s => s
  | s => s

/-- `is_int(s)` (R62, R74): an optional sign, then digits. -/
def isIntLiteral (s : Text) : Bool := isDigits (dropSign s)

/-- The value of a digit character. -/
def digitValue (c : Char) : Nat := c.toNat - 0x30

/-- The decimal value of a text of digits (R62). -/
def natValue (s : Text) : Nat := s.foldl (fun n c => 10 * n + digitValue c) 0

/-- `int(s)` (R62, R74): the decimal value of the digits, negated if the sign is `-`. -/
def intValue : Text → Int
  | '-' :: s => -(natValue s : Int)
  | s => natValue (dropSign s)

/-- The value of a text that is an integer literal. -/
def parseInt (s : Text) : Option Int := if isIntLiteral s then some (intValue s) else none

/-- The digit character of a number below 10. -/
def digitChar (n : Nat) : Char := Char.ofNat (0x30 + n)

/-- The decimal digits of `n`, without leading zeros, where `fuel` exceeds `n`. -/
def natTextAux : Nat → Nat → Text
  | 0, _ => []
  | fuel + 1, n =>
    if n < 10 then [digitChar n] else natTextAux fuel (n / 10) ++ [digitChar (n % 10)]

/-- A natural number in decimal with no leading zeros (R88). -/
def natText (n : Nat) : Text := natTextAux (n + 1) n

/-- An integer in decimal, a leading `-` where it is negative, no `+` (R88). -/
def intText : Int → Text
  | .ofNat n => natText n
  | .negSucc n => '-' :: natText (n + 1)

/-- The lines of a character stream (R59): a line ends at LF, and a CR before it stays in the line. Text
after the last LF is a line where there is some (log 6). -/
def splitLines : Text → List Text
  | [] => []
  | c :: s =>
    if c.toNat == 0x0A then [] :: splitLines s
    else
      match splitLines s with
      | [] => [[c]]
      | line :: rest => (c :: line) :: rest

end Sys2Proof.Machine
end

