-- ==== Sys2Proof/WellFormed.lean ====
section
/-! DEFINITION. Which parameters, records and programs the spec admits. An `Instr` is well formed by
construction (R75): its register is one of the eight and it carries as many targets as its operation. -/

namespace Sys2Proof

/-- The values a register can hold (R8, R17). -/
def RegBound.holds : RegBound → Int → Bool
  | .unbounded, v => 0 ≤ v
  | .bits w, v => 0 ≤ v && v < 2 ^ w

/-- `BITS(w)` asks for a width `w >= 1` (R8). -/
def RegBound.wf : RegBound → Bool
  | .unbounded => true
  | .bits w => 1 ≤ w

/-- `COMMENT_CHAR` must not be `:`, whitespace, a letter, a digit, `+` or `-` (R11). -/
def commentCharOk (c : Char) : Bool :=
  c != ':' && !Machine.isWhitespace c && !Machine.isLetter c && !Machine.isDigit c && c != '+' && c != '-'

/-- The parameters the spec admits. -/
def Config.wf (cfg : Config) : Bool := cfg.regBound.wf && commentCharOk cfg.commentChar

/-- The source's record is an instruction when its label is not negative and it carries exactly the
targets of its operation (R37). -/
def SourceRecord.wf (r : SourceRecord) : Bool :=
  decide (0 ≤ r.label) && r.targets.length == r.operation.arity

/-- The record of the source (R37) that the instruction `i` at label `l` stands for. -/
def Instr.record (l : Nat) (i : Instr) : SourceRecord :=
  { label := l, operation := i.operation, register := i.register, targets := i.targets }

/-- The one canonical form of an instruction memory: labels strictly rising, so that a label has at most
one entry (R45) and equal maps are equal data. -/
abbrev Program.Canonical (P : Program) : Prop :=
  P.entries.Pairwise (fun a b => a.1 < b.1)

/-- A program: a canonical instruction memory with at least one entry (R38, R45). -/
abbrev Program.WF (P : Program) : Prop := P.entries.isEmpty = false ∧ P.Canonical

end Sys2Proof
end

