-- ==== Sys2Proof/Decode.lean ====
section
/-! DEFINITION. The line decoder (R65 to R75), total on any text and rejecting by name, and the encoder
(R88), which writes an instruction's canonical line. -/

namespace Sys2Proof

open Machine

/-- The upper-case letter that names a register (R25). -/
def Reg.letter : Reg → Char
  | .A => 'A' | .B => 'B' | .C => 'C' | .D => 'D'
  | .E => 'E' | .F => 'F' | .G => 'G' | .H => 'H'

/-- `REGMAP` (R70, R74): the register an upper-cased token names. -/
def regOfName (s : Text) : Option Reg := Reg.all.find? (fun r => s == [r.letter])

/-- The mnemonic of an operation (R83). -/
def Operation.mnemonic : Operation → Text
  | .increment => ['A', 'D', 'D']
  | .decrement => ['S', 'U', 'B']
  | .testZero => ['Z', 'E', 'R']

/-- `OPMAP` (R74, R83): the operation an upper-cased token names. -/
def opOfMnemonic (s : Text) : Option Operation :=
  [Operation.increment, .decrement, .testZero].find? (fun op => s == op.mnemonic)

/-- The decoded record of R75 for an operation, a register and that operation's targets. -/
def instrOf : Operation → Reg → List Int → Option Instr
  | .increment, r, [t] => some (.add r t)
  | .decrement, r, [t] => some (.sub r t)
  | .testZero, r, [t0, t1] => some (.zer r t0 t1)
  | _, _, _ => none

/-- The instruction a source record stands for (R37, R75), where it is well formed. -/
def SourceRecord.toInstr (r : SourceRecord) : Option (Nat × Instr) :=
  if r.wf then (instrOf r.operation r.register r.targets).map (fun i => (r.label.toNat, i)) else none

/-- Step 1 (R65): the line trimmed, its comment cut off, and trimmed again. -/
def cleanLine (cfg : Config) (raw : Text) : Text := trim (cutAt cfg.commentChar (trim raw))

/-- Steps 3 and 4 (R68 to R72), for a line whose label is `l`: the tokens of its instruction portion. -/
def decodeFields (l : Nat) (tk : List Text) : LineResult :=
  match tk with
  | [] => .err (.malformedLine .missingField) (some l)
  | m :: rest =>
    match opOfMnemonic (upper m) with
    | none => .err .unknownOperation (some l)
    | some op =>
      match rest with
      | [] => .err (.malformedLine .missingField) (some l)
      | g :: ts =>
        match regOfName (upper g) with
        | none => .err .unknownRegister (some l)
        | some r =>
          if ts.length != op.arity then .err .arityMismatch (some l)
          else if !ts.all isIntLiteral then .err (.malformedLine .badTarget) (some l)
          else
            match instrOf op r (ts.map intValue) with
            | some i => .ok l i
            | none => .err .arityMismatch (some l)

/-- `decode_line(raw)` (R74). -/
def decodeLine (cfg : Config) (raw : Text) : LineResult :=
  let s := cleanLine cfg raw
  if s.isEmpty then .skip
  else
    match splitFirst ':' s with
    | none => .err (.malformedLine .noSeparator) none
    | some (lp, ip) =>
      if !isIntLiteral (trim lp) then .err (.malformedLine .badLabel) none
      else if intValue (trim lp) < 0 then .err (.malformedLine .negativeLabel) none
      else decodeFields (intValue (trim lp)).toNat (tokens ip)

/-- The instruction portion of a canonical line (R88), its fields separated by single spaces. -/
def encodeFields (i : Instr) : Text :=
  i.operation.mnemonic ++ ' ' :: i.register.letter :: (i.targets.map (fun t => ' ' :: intText t)).flatten

/-- The encoder: the canonical line of the instruction `i` at label `l` (R88). -/
def encodeLine (l : Nat) (i : Instr) : Text := natText l ++ ':' :: ' ' :: encodeFields i

/-- A program serialised as its entries in ascending label order, one line each (R88). -/
def serialize (P : Program) : List Text := P.entries.map (fun e => encodeLine e.1 e.2)

/-- The text line held by the low `nbits` bits of `w`, one character a byte, the first character in the
lowest byte (log 4: the block has no binary encoding of its own). -/
def lineOfWord (nbits w : Nat) : Text :=
  (List.range (nbits / 8)).map (fun k => Char.ofNat ((w >>> (8 * k)) % 256))

/-- The number whose bytes are the characters of a line of ASCII text, the first character lowest (log 4). -/
def wordOfLine (s : Text) : Nat := s.foldr (fun c acc => c.toNat + 256 * acc) 0

/-- How many bits `wordOfLine` fills. -/
def bitsOfLine (s : Text) : Nat := 8 * s.length

/-- The instruction the decoder reads, under the default parameters, from a line given as a number
(log 4). Text outside ASCII is refused (R60). -/
def decodeTableWord (nbits w : Nat) : Option Instr :=
  if (lineOfWord nbits w).all isAscii then
    match decodeLine Config.default (lineOfWord nbits w) with
    | .ok _ i => some i
    | .skip => none
    | .err _ _ => none
  else none

end Sys2Proof
end

