-- ==== Sys2Proof/Machine/State.lean ====
section
/-! DEFINITION. The machine state (R23, R42), plain data, and its value at construction, the block's only
reset (R43, R124). -/

namespace Sys2Proof.Machine

/-- The register file `x` (R25): eight cells, each a natural number (R26). -/
structure RegFile where
  a : Nat
  b : Nat
  c : Nat
  d : Nat
  e : Nat
  f : Nat
  g : Nat
  h : Nat
  deriving DecidableEq, Repr

/-- All eight registers at 0 (R43). -/
def RegFile.zero : RegFile :=
  { a := 0, b := 0, c := 0, d := 0, e := 0, f := 0, g := 0, h := 0 }

/-- `run_state` (R36). -/
inductive RunState where
  /-- Constructed, run not yet started. -/
  | idle
  /-- Between the entry snapshot and the end of the run. -/
  | running
  /-- The run ended because `pc` named no instruction. -/
  | halted
  /-- The run ended at an abort request. -/
  | aborted
  /-- The run ended at a `RegisterOverflow`, with the label and the register it records (R109, R110). -/
  | faulted (label : Int) (register : Reg)
  deriving DecidableEq, Repr

/-- The tag of a snapshot (R97). -/
inductive SnapshotTag where
  | entry | step | halted
  deriving DecidableEq, Repr

/-- One trace record (R97): the registers in it are a copy. -/
structure Snapshot where
  tag : SnapshotTag
  registers : RegFile
  pc : Int
  description : Option Text
  deriving DecidableEq, Repr

/-- The machine state (R23), the two output sequences (R42), and the parameters (log 1). -/
structure State where
  /-- The implementation parameters (R8, R11 to R16): the model's own field; no step changes it. -/
  cfg : Config
  /-- The register file (R25). -/
  x : RegFile
  /-- The program counter (R29): `none` is `UNSET`. -/
  pc : Option Int
  /-- The reference to the program (R38): `none` is `NONE`. -/
  prog : Option Program
  /-- Where the run stands (R36). -/
  runState : RunState
  /-- The host's abort request (R39). -/
  abortReq : Bool
  /-- The snapshots emitted so far, the oldest first (R42, R97). -/
  trace : List Snapshot
  /-- The initial-register warnings of this run, in order (R42, R43, R93). -/
  diagnostics : List InitWarning
  deriving DecidableEq, Repr

/-- A machine state freshly constructed on a block with the parameters `cfg` (R43, R124). -/
def State.construct (cfg : Config) : State where
  cfg := cfg
  x := RegFile.zero
  pc := none
  prog := none
  runState := .idle
  abortReq := false
  trace := []
  diagnostics := []

/-- The machine right after reset, which is construction (R124), under the default parameters. -/
def State.reset : State := State.construct Config.default

/-- What the run port returns when a run has ended (R98, R99, R110). -/
inductive RunResult where
  | halted (registers : RegFile)
  | aborted (registers : RegFile)
  | faulted (registers : RegFile) (label : Int) (register : Reg)
  deriving DecidableEq, Repr

/-- Why the machine stops with a fault. -/
inductive Fault where
  /-- `RegisterOverflow` (R110). Raised by a step of a machine whose run has ended `FAULTED`: no step
  follows a fault (R111). Safe: the model stops where the block has stopped. -/
  | registerOverflow (label : Int) (register : Reg)
  /-- A read of `pc` while it is `UNSET`, which has no meaning (R29, I22). Raised by an overflow or a step
  that finds no `pc`; no run reaches one. Safe: the model stops. -/
  | pcUnset
  deriving DecidableEq, Repr

/-- Which inputs the model gives no meaning. -/
inductive Refusal where
  /-- An instruction without a meaning; no arm of `exec` answers it. Safe: nothing can be proved. -/
  | notModelled (mnemonic : String)
  /-- `refuse(NoProgram)` (R91): a run without a loaded program. Raised by the run port, and by a step
  of a running machine that has none. Safe. -/
  | noProgram
  /-- `refuse(UnrepresentableInitialValue)` (R92), under `NEG_INIT_POLICY = REFUSE`. Raised by the run
  port. Safe. -/
  | unrepresentableInitialValue
  /-- A machine state serves one run (R36, R91). Raised by the run port on one that has been used. Safe. -/
  | machineStateUsed
  /-- A step of a machine state whose run has not been started (R24). Raised by `step` while `IDLE`. Safe. -/
  | runNotStarted
  /-- A step of a machine state whose run has ended `HALTED` or `ABORTED`: no step leaves them (R36).
  Raised by `step`. Safe. -/
  | runEnded
  /-- An abort request to a block without the abort input (R14, R39). Raised by the abort port. Safe. -/
  | abortNotSupported
  deriving DecidableEq, Repr

end Sys2Proof.Machine
end

