-- ==== Sys2Proof/Machine/Flags.lean ====
section
/-! DEFINITION. The ALU (R104). The block has no flags (R34): what an operation finds out about a value is
used at once and recorded nowhere. -/

namespace Sys2Proof.Machine

/-- Increment (R104, R105): `none` where the result cannot be held, under `BITS(w)` at `2^w - 1`. -/
def increment (bound : RegBound) (v : Nat) : Option Nat :=
  match bound with
  | .unbounded => some (v + 1)
  | .bits w => if v = 2 ^ w - 1 then none else some (v + 1)

/-- Decrement, saturating at 0 (R104, R106). -/
def decrement (v : Nat) : Nat := if v = 0 then 0 else v - 1

/-- The zero test (R107). -/
def isZero (v : Nat) : Bool := v == 0

end Sys2Proof.Machine
end

