-- ==== Sys2Proof/Machine/Memory.lean ====
section
/-! DEFINITION. The instruction memory's operations (R19, R45, R47, R48). -/

namespace Sys2Proof.Machine

/-- The record listed under a label. -/
def lookupLabel : List (Nat × Instr) → Nat → Option Instr
  | [], _ => none
  | (k, i) :: rest, l => if k = l then some i else lookupLabel rest l

/-- A canonical list with the record `i` under the label `l`, replacing the one it had (R76). -/
def insertLabel : List (Nat × Instr) → Nat → Instr → List (Nat × Instr)
  | [], l, i => [(l, i)]
  | (k, j) :: rest, l, i =>
    if l < k then (l, i) :: (k, j) :: rest
    else if l = k then (l, i) :: rest
    else (k, j) :: insertLabel rest l i

/-- A program with `i` stored under `l`, and its other entries (R76). -/
def programInsert (P : Program) (l : Nat) (i : Instr) : Program :=
  { entries := insertLabel P.entries l i }

/-- `fetch(t)` (R19, R47): the whole record under `t`; a negative value is never a key. -/
def fetch (P : Program) : Int → Option Instr
  | .ofNat l => lookupLabel P.entries l
  | .negSucc _ => none

/-- `defined(t)` (R19, R47). -/
def isDefined (P : Program) (t : Int) : Bool := (fetch P t).isSome

/-- `START = min(dom PROG)` (R19, R48); none for a memory with no entry. -/
def startLabel (P : Program) : Option Nat :=
  match P.entries with
  | [] => none
  | e :: rest => some (rest.foldl (fun m e' => min m e'.1) e.1)

end Sys2Proof.Machine
end

