-- ==== Sys2Proof/Machine/Operands.lean ====
section
/-! DEFINITION. The operand forms (R18, R63): one register, read and written whole, and one or two targets,
which are used as they are. -/

namespace Sys2Proof.Machine

/-- The value of register `r` in a register file (R18). -/
def RegFile.read (x : RegFile) : Reg → Nat
  | .A => x.a
  | .B => x.b
  | .C => x.c
  | .D => x.d
  | .E => x.e
  | .F => x.f
  | .G => x.g
  | .H => x.h

/-- A register file with `v` in register `r` (R18). -/
def RegFile.write (x : RegFile) (r : Reg) (v : Nat) : RegFile :=
  match r with
  | .A => { x with a := v }
  | .B => { x with b := v }
  | .C => { x with c := v }
  | .D => { x with d := v }
  | .E => { x with e := v }
  | .F => { x with f := v }
  | .G => { x with g := v }
  | .H => { x with h := v }

/-- `x[r]` (R18). -/
def State.readReg (s : State) (r : Reg) : Nat := s.x.read r

/-- `x[r] <- v` (R18). -/
def State.writeReg (s : State) (r : Reg) (v : Nat) : State := { s with x := s.x.write r v }

/-- `pc <- t` (R18): a target is an absolute label (R63, R108). -/
def State.setPc (s : State) (t : Int) : State := { s with pc := some t }

end Sys2Proof.Machine
end

