-- ==== Sys2Proof/Machine/Ops.lean ====
section
/-! DEFINITION. The operations that instructions and the sequencer share: the trace output and the one
run-time fault. There is no trap entry with a handler (R114) and no return from one (R115). -/

namespace Sys2Proof.Machine

/-- `emit S` (R20, R97): append a snapshot to the trace. -/
def State.emit (s : State) (snap : Snapshot) : State := { s with trace := s.trace ++ [snap] }

/-- `DESCRIBE(l, i)` (R16): the canonical form (R88), or an implementation's own text (log 2). -/
def describe (cfg : Config) (l : Nat) (i : Instr) : Text :=
  match cfg.describe with
  | .canonical => encodeLine l i
  | .implementation => Config.freeDescription l i

/-- `raise RegisterOverflow(label = pc, register = r)` (R110): the run ends `FAULTED`; registers and `pc`
stay as they are and no halted snapshot is emitted (log 5). -/
def State.raiseOverflow (s : State) (r : Reg) : Host.Outcome State Fault Refusal :=
  match s.pc with
  | some l => .next { s with runState := .faulted l r }
  | none => .fault .pcUnset

/-- What the run port returns (R98, R99, R110): nothing before the run has ended (R101). -/
def State.result (s : State) : Option RunResult :=
  match s.runState with
  | .idle => none
  | .running => none
  | .halted => some (.halted s.x)
  | .aborted => some (.aborted s.x)
  | .faulted l r => some (.faulted s.x l r)

end Sys2Proof.Machine
end

