-- ==== Sys2Proof/Machine/IncDec.lean ====
section
/-! DEFINITION. ADD and SUB (R105, R106), each as step b of R96. -/

namespace Sys2Proof.Machine

/-- `ADD r t` (R105): increment register `r`, then go to `t`; or `RegisterOverflow`, nothing written. -/
def execAdd (r : Reg) (t : Int) (s : State) : Host.Outcome State Fault Refusal :=
  match increment s.cfg.regBound (s.readReg r) with
  | some v => .next ((s.writeReg r v).setPc t)
  | none => s.raiseOverflow r

/-- `SUB r t` (R106): decrement register `r`, saturating at 0, then go to `t`. -/
def execSub (r : Reg) (t : Int) (s : State) : Host.Outcome State Fault Refusal :=
  .next ((s.writeReg r (decrement (s.readReg r))).setPc t)

end Sys2Proof.Machine
end

