-- ==== Sys2Proof/Machine/TestZero.lean ====
section
/-! DEFINITION. ZER (R107), as step b of R96. -/

namespace Sys2Proof.Machine

/-- `ZER r t0 t1` (R107): go to `t0` if register `r` is 0, else to `t1`; no register is written. -/
def execZer (r : Reg) (t0 t1 : Int) (s : State) : Host.Outcome State Fault Refusal :=
  .next (s.setPc (if isZero (s.readReg r) then t0 else t1))

end Sys2Proof.Machine
end

