-- ==== Sys2Proof/Machine/Dispatch.lean ====
section
/-! DEFINITION. `exec`: step b of R96, one arm per instruction. -/

namespace Sys2Proof.Machine

def exec (i : Instr) (s : State) : Host.Outcome State Fault Refusal :=
  match i with
  | .add r t => Sys2Proof.Machine.execAdd r t s
  | .sub r t => Sys2Proof.Machine.execSub r t s
  | .zer r t0 t1 => Sys2Proof.Machine.execZer r t0 t1 s

end Sys2Proof.Machine
end

