-- ==== Sys2Proof/Machine/Loader.lean ====
section
/-! DEFINITION. The load port (R59, R60, R76 to R82). -/

namespace Sys2Proof.Machine

/-- Step 5 over the lines from number `n` on (R76 to R79, R82), with the memory `M` and the diagnostics
`D` of the lines before. -/
def loadLines (cfg : Config) : Nat → List Text → Program → List Diagnostic → LoadResult
  | _, [], M, D => if M.entries.isEmpty then .emptyProgram D else .loaded M D
  | n, raw :: rest, M, D =>
    match decodeLine cfg raw with
    | .skip => loadLines cfg (n + 1) rest M D
    | .err k l =>
      loadLines cfg (n + 1) rest M (D ++ [{ kind := k, lineNumber := n, label := l, text := raw }])
    | .ok l i =>
      if (lookupLabel M.entries l).isSome && cfg.duplicatePolicy == .reject then
        .duplicateLabel (D ++ [{ kind := .duplicateLabel, lineNumber := n, label := some l, text := raw }])
      else loadLines cfg (n + 1) rest (programInsert M l i) D

/-- The load port (R82); `none` is a line source that is missing or unreadable (R59). -/
def load (cfg : Config) (source : Option (List Text)) : LoadResult :=
  match source with
  | none => .missingSource
  | some lines =>
    match cfg.nonAsciiPolicy with
    | .refuseLoad =>
      if lines.all (fun line => line.all isAscii) then loadLines cfg 1 lines { entries := [] } []
      else .nonAsciiSource

/-- The load port on a character stream, cut into lines first (R59). -/
def loadText (cfg : Config) (source : Option Text) : LoadResult := load cfg (source.map splitLines)

/-- The program a load produced (R81). -/
def loadedProgram : LoadResult → Option Program
  | .loaded P _ => some P
  | .missingSource => none
  | .emptyProgram _ => none
  | .duplicateLabel _ => none
  | .nonAsciiSource => none

end Sys2Proof.Machine
end

