-- ==== Sys2Proof/Machine/Sequencer.lean ====
section
/-! DEFINITION. The sequencer (R90 to R103): the initial-register port, the start of a run, one step of the
loop, the halt, the abort, and the run port. -/

namespace Sys2Proof.Machine

/-- The register an initial-register key names (R92): case-insensitive, after trimming. -/
def keyRegister (key : Text) : Option Reg := regOfName (upper (trim key))

/-- The integer an initial value is (R92), text being read as an integer literal after trimming. -/
def initInteger : InitValue → Option Int
  | .text t => parseInt (trim t)
  | .int v => some v

/-- One initial-register entry (R92, R93): the registers after it and its warnings, or `none` where the
run is refused. A value that is an integer is shown as one in its warning (log 7). -/
def applyEntry (cfg : Config) (x : RegFile) (entry : InitEntry) : Option (RegFile × List InitWarning) :=
  match keyRegister entry.key with
  | none => some (x, [.unknownInitialRegister entry.key])
  | some r =>
    match initInteger entry.value with
    | none => some (x.write r 0, [.invalidInitialValue r entry.value])
    | some v =>
      if cfg.regBound.holds v then some (x.write r v.toNat, [])
      else
        match cfg.negInitPolicy with
        | .zeroWithWarning => some (x.write r 0, [.invalidInitialValue r (.int v)])
        | .refuse => none

/-- All the entries, in the order given (R92). -/
def applyEntries (cfg : Config) : RegFile → List InitEntry → Option (RegFile × List InitWarning)
  | x, [] => some (x, [])
  | x, entry :: rest =>
    match applyEntry cfg x entry with
    | none => none
    | some (x', ws) =>
      match applyEntries cfg x' rest with
      | none => none
      | some (x'', ws') => some (x'', ws ++ ws')

/-- The entry snapshot (R94). -/
def entrySnapshot (x : RegFile) (start : Nat) : Snapshot :=
  { tag := .entry, registers := x, pc := start, description := none }

/-- The snapshot emitted before an instruction (R96 a). -/
def stepSnapshot (cfg : Config) (x : RegFile) (t : Int) (i : Instr) : Snapshot :=
  { tag := .step, registers := x, pc := t, description := some (describe cfg t.toNat i) }

/-- The halted snapshot (R99). -/
def haltedSnapshot (x : RegFile) (t : Int) : Snapshot :=
  { tag := .halted, registers := x, pc := t, description := none }

/-- The start of a run of `P` from registers `x` (R94, R125), with the warnings reported before the entry
snapshot (R93). -/
def State.begin (s : State) (P : Program) (start : Nat) (x : RegFile) (ws : List InitWarning) : State :=
  State.emit
    { s with
      x := x, prog := some P, pc := some (start : Int), runState := .running, abortReq := false,
      diagnostics := s.diagnostics ++ ws }
    (entrySnapshot x start)

/-- The run port up to its loop (R91 to R94): a fresh machine state, a program the load port can return
(log 8), and the initial-register entries. -/
def startRun (s : State) (program : Option Program) (entries : List InitEntry) :
    Host.Outcome State Fault Refusal :=
  match s.runState with
  | .idle =>
    match program with
    | none => .refused .noProgram
    | some P =>
      match startLabel P with
      | none => .refused .noProgram
      | some start =>
        if P.WF then
          match applyEntries s.cfg RegFile.zero entries with
          | none => .refused .unrepresentableInitialValue
          | some (x, ws) => .next (s.begin P start x ws)
        else .refused .noProgram
  | .running => .refused .machineStateUsed
  | .halted => .refused .machineStateUsed
  | .aborted => .refused .machineStateUsed
  | .faulted _ _ => .refused .machineStateUsed

/-- Step a of R96. -/
def State.emitStep (s : State) (t : Int) (i : Instr) : State :=
  s.emit (stepSnapshot s.cfg s.x t i)

/-- The halt (R99): `pc` keeps the value that caused it (R33). -/
def State.halt (s : State) (t : Int) : State :=
  { s.emit (haltedSnapshot s.x t) with runState := .halted }

/-- Step c of R96, the abort check (R98). A step that has faulted never reaches it (R113). -/
def State.abortCheck (s : State) : State :=
  if s.cfg.abortSupported && s.abortReq && s.runState == .running then { s with runState := .aborted }
  else s

/-- The abort check after an instruction that has gone on. -/
def afterInstr : Host.Outcome State Fault Refusal → Host.Outcome State Fault Refusal
  | .next s => .next s.abortCheck
  | .fault r => .fault r
  | .refused r => .refused r

/-- One turn of the sequencer's loop (R95 to R99, R103): a step while `pc` names an instruction, else the
halt. Before a run and after its end there is no step (R36, R111; log 9). -/
def sequencerStep (s : State) : Host.Outcome State Fault Refusal :=
  match s.runState with
  | .running =>
    match s.prog with
    | none => .refused .noProgram
    | some P =>
      match s.pc with
      | none => .fault .pcUnset
      | some t =>
        match fetch P t with
        | some i => afterInstr (exec i (s.emitStep t i))
        | none => .next (s.halt t)
  | .idle => .refused .runNotStarted
  | .halted => .refused .runEnded
  | .aborted => .refused .runEnded
  | .faulted l r => .fault (.registerOverflow l r)

/-- The abort input (R39): the host sets the request; nothing in a run clears it (log 10). -/
def raiseAbort (s : State) : Host.Outcome State Fault Refusal :=
  if s.cfg.abortSupported then .next { s with abortReq := true } else .refused .abortNotSupported

/-- One turn of the loop (R96, R99) in which the host raises the abort request or does not (R39). A request
made during a turn is seen where one made before it is, at the check that ends its step (R98, R130). -/
def runTurn (request : Bool) (s : State) : Host.Outcome State Fault Refusal :=
  if request then
    match raiseAbort s with
    | .next s' => sequencerStep s'
    | .fault r => .fault r
    | .refused r => .refused r
  else sequencerStep s

/-- The loop (R103), with what the host does to the abort input in each of its turns (R39): one entry a turn,
and at most so many turns as there are entries (R131, log 12). It stops where the run has ended. -/
def runLoop : List Bool → State → Host.Outcome State Fault Refusal
  | [], s => .next s
  | request :: requests, s =>
    if s.runState = .running then
      match runTurn request s with
      | .next s' => runLoop requests s'
      | .fault r => .fault r
      | .refused r => .refused r
    else .next s

/-- The run port (R90, R103), for the host's abort requests turn by turn (log 12): the state it leaves, whose
`State.result` is what the port returns, or none where the turns ended before the run. -/
def runPort (requests : List Bool) (s : State) (program : Option Program) (entries : List InitEntry) :
    Host.Outcome State Fault Refusal :=
  match startRun s program entries with
  | .next s' => runLoop requests s'
  | .fault r => .fault r
  | .refused r => .refused r

/-- A machine state that runs the program of one text line as its next step, or has no program where the
line loads none (log 3). -/
def State.withLine (s : State) (line : Text) : State :=
  let program := loadedProgram (load s.cfg (some [line]))
  { s with
    prog := program, pc := (program.bind startLabel).map (fun l => (l : Int)), runState := .running }

end Sys2Proof.Machine
end

