-- ==== Sys2Proof/Machine/Step.lean ====
section
/-! DEFINITION. One step of the machine: one turn of the sequencer's loop. -/

namespace Sys2Proof.Machine

/-- One step (R96), or the halt (R99). -/
def step (s : State) : Host.Outcome State Fault Refusal := sequencerStep s

/-- `s` with the instruction whose text line is `w` (log 4) loaded as its program and the run started at
it, so that the next step runs it (log 3). -/
def State.withFetchWord (s : State) (nbits w : Nat) : State := s.withLine (lineOfWord nbits w)

end Sys2Proof.Machine
end

