-- ==== Sys2Proof/Safety.lean ====
section
/-! DEFINITION. What a sound machine state is, and what a safe run is, in the terms the statements use. -/

namespace Sys2Proof.Machine

/-- A run has ended (R101). -/
def State.ended (s : State) : Bool :=
  match s.runState with
  | .idle => false
  | .running => false
  | .halted => true
  | .aborted => true
  | .faulted _ _ => true

/-- Every register holds a value of the domain (R26). -/
def State.RegsFit (s : State) : Prop := ∀ r, s.cfg.regBound.holds (s.readReg r) = true

/-- The snapshots that a run emits before its instructions: all tagged `STEP`, each at a label the program
defines, with that instruction's description (R96 a). -/
def stepSnapshotOf (cfg : Config) (P : Program) (snap : Snapshot) : Prop :=
  ∃ i, fetch P snap.pc = some i ∧ snap = stepSnapshot cfg snap.registers snap.pc i

/-- The trace of a run of `P` while it goes on: the entry snapshot, at the start label, then one `STEP`
snapshot for each step so far (R94, R96, R101). -/
def TraceOpen (cfg : Config) (P : Program) (trace : List Snapshot) : Prop :=
  ∃ start x steps, startLabel P = some start ∧ trace = entrySnapshot x start :: steps ∧
    ∀ snap ∈ steps, stepSnapshotOf cfg P snap

/-- What holds of a machine state at each point of its life (R24, R29, R36, R99, R101, R110). -/
def State.LifeOk (s : State) : Prop :=
  match s.runState with
  | .idle => s.pc = none ∧ s.prog = none ∧ s.x = RegFile.zero ∧ s.trace = [] ∧ s.diagnostics = []
  | .running =>
    ∃ P t, s.prog = some P ∧ P.WF ∧ s.pc = some t ∧ TraceOpen s.cfg P s.trace
  | .halted =>
    ∃ P t before, s.prog = some P ∧ P.WF ∧ s.pc = some t ∧ isDefined P t = false ∧
      TraceOpen s.cfg P before ∧ s.trace = before ++ [haltedSnapshot s.x t]
  | .aborted =>
    ∃ P t, s.prog = some P ∧ P.WF ∧ s.pc = some t ∧ TraceOpen s.cfg P s.trace ∧
      s.cfg.abortSupported = true ∧ s.abortReq = true
  | .faulted l r =>
    ∃ P t w, s.prog = some P ∧ P.WF ∧ s.pc = some l ∧ fetch P l = some (.add r t) ∧
      s.cfg.regBound = .bits w ∧ s.readReg r = 2 ^ w - 1 ∧ TraceOpen s.cfg P s.trace

/-- The invariant of a machine state: its registers hold values of the domain, and it stands at a point
of its life. -/
structure State.Inv (s : State) : Prop where
  regsFit : s.RegsFit
  lifeOk : s.LifeOk

/-- A safe step: it is no fault, and it has not ended the run `FAULTED` (R111). -/
def SafeStep (s : State) : Prop :=
  match step s with
  | .next s' => ∀ l r, s'.runState ≠ .faulted l r
  | .fault _ => False
  | .refused _ => True

/-- The label and the instruction of a line that decodes. -/
def decodedEntry (cfg : Config) (raw : Text) : Option (Nat × Instr) :=
  match decodeLine cfg raw with
  | .ok l i => some (l, i)
  | .err _ _ => none
  | .skip => none

/-- The diagnostic of the line with number `n`, where it fails. -/
def lineDiagnostic (cfg : Config) (raw : Text) (n : Nat) : Option Diagnostic :=
  match decodeLine cfg raw with
  | .ok _ _ => none
  | .err k l => some { kind := k, lineNumber := n, label := l, text := raw }
  | .skip => none

/-- The diagnostics of some lines, numbered from `n` (R80). -/
def lineDiagnosticsFrom (cfg : Config) (n : Nat) (lines : List Text) : List Diagnostic :=
  (lines.zipIdx n).filterMap (fun e => lineDiagnostic cfg e.1 e.2)

/-- The diagnostics of some lines, numbered from 1 (R59, R80). -/
def lineDiagnostics (cfg : Config) (lines : List Text) : List Diagnostic := lineDiagnosticsFrom cfg 1 lines

/-- The labels that some lines define, in their order. -/
def decodedLabels (cfg : Config) (lines : List Text) : List Nat :=
  lines.filterMap (fun raw => (decodedEntry cfg raw).map Prod.fst)

/-- The instruction memory after some lines whose records are stored one after another (R76, `LAST_WINS`). -/
def storeLines (cfg : Config) (M : Program) (lines : List Text) : Program :=
  (lines.filterMap (decodedEntry cfg)).foldl (fun N e => programInsert N e.1 e.2) M

/-- The key of an initial-register entry names register `r` (R92 item 1). -/
def entryNames (r : Reg) (e : InitEntry) : Bool := upper (trim e.key) == [r.letter]

/-- The value of an initial-register entry is an integer that no register can hold (R92 item 4). -/
def entryUnrepresentable (cfg : Config) (e : InitEntry) : Bool :=
  match initInteger e.value with
  | none => false
  | some v => !cfg.regBound.holds v

/-- The value that an entry gives the register it names (R92 items 2 to 4, `ZERO_WITH_WARNING`). -/
def entryValue (cfg : Config) (e : InitEntry) : Nat :=
  match initInteger e.value with
  | none => 0
  | some v => if cfg.regBound.holds v then v.toNat else 0

/-- The warnings of one entry (R93): an unknown key with the key, a bad value of a known register with the
register and the value (log 7). -/
def entryWarnings (cfg : Config) (e : InitEntry) : List InitWarning :=
  match regOfName (upper (trim e.key)) with
  | none => [.unknownInitialRegister e.key]
  | some r =>
    match initInteger e.value with
    | none => [.invalidInitialValue r e.value]
    | some v => if cfg.regBound.holds v then [] else [.invalidInitialValue r (.int v)]

/-- The state as every rule but `emit` sees it: without its trace and without the choice of description
text, which no rule reads (R16, R42). -/
def State.unobserved (s : State) : State :=
  { s with trace := [], diagnostics := [], cfg := { s.cfg with describe := .canonical } }

/-- An outcome as `State.unobserved` shows its next state. -/
def unobservedOutcome : Host.Outcome State Fault Refusal → Host.Outcome State Fault Refusal
  | .next s => .next s.unobserved
  | .fault r => .fault r
  | .refused r => .refused r

end Sys2Proof.Machine
end

