-- ==== Sys2Proof/Certificates/Slice0/Obligations.lean ====
section
/-! DEFINITION. The statements for the provers. Each docstring says which rules of spec/ it formalises. -/

open Sys2Proof Sys2Proof.Machine

section Text

/-- R62: an optional sign, then one or more decimal digits, and its value, the digits `0`..`9` having the
values 0 to 9; `Nat.ofDigits` takes the least digit first. -/
def Obligations.IntegerLiteralSyntaxAndValue : Prop :=
  (∀ s : Text, isIntLiteral s = true ↔
    ∃ sign ds : Text, s = sign ++ ds ∧ sign ∈ [[], ['+'], ['-']] ∧ ds ≠ [] ∧
      ∀ c ∈ ds, c ∈ ['0', '1', '2', '3', '4', '5', '6', '7', '8', '9']) ∧
  ['0', '1', '2', '3', '4', '5', '6', '7', '8', '9'].map digitValue = [0, 1, 2, 3, 4, 5, 6, 7, 8, 9] ∧
  (∀ ds : Text, ds ≠ [] → (∀ c ∈ ds, c ∈ ['0', '1', '2', '3', '4', '5', '6', '7', '8', '9']) →
    intValue ds = ((Nat.ofDigits 10 (ds.reverse.map digitValue) : Nat) : Int) ∧
    intValue ('+' :: ds) = intValue ds ∧ intValue ('-' :: ds) = -intValue ds ∧
    intValue ('0' :: ds) = intValue ds)

/-- R64: the six whitespace characters, and what `trim` leaves. -/
def Obligations.WhitespaceAndTrim : Prop :=
  (∀ c : Char, isWhitespace c = true ↔ c.toNat ∈ [0x20, 0x09, 0x0A, 0x0B, 0x0C, 0x0D]) ∧
  (∀ s : Text, (∃ before after : Text, s = before ++ trim s ++ after ∧
      (∀ c ∈ before, isWhitespace c = true) ∧ ∀ c ∈ after, isWhitespace c = true) ∧
    (∀ c ∈ (trim s).head?, isWhitespace c = false) ∧ ∀ c ∈ (trim s).getLast?, isWhitespace c = false)

/-- Derived from R68 and R21: a token is a run without whitespace, and whitespace ends one. -/
def Obligations.TokensAreThePiecesBetweenWhitespace : Prop :=
  (∀ s : Text, (∀ c ∈ s, isWhitespace c = true) → tokens s = []) ∧
  (∀ (before t : Text) (c : Char) (rest : Text), (∀ d ∈ before, isWhitespace d = true) → t ≠ [] →
    (∀ d ∈ t, isWhitespace d = false) → isWhitespace c = true →
    tokens (before ++ t) = [t] ∧ tokens (before ++ t ++ c :: rest) = t :: tokens rest) ∧
  (∀ s : Text, (tokens s).flatten = s.filter (fun c => !isWhitespace c))

end Text

section Decoder

/-- Derived from R65: a comment changes nothing; what is blank without it is skipped, with no diagnostic and no entry. -/
def Obligations.CommentsAndBlankLinesAreIgnored : Prop :=
  ∀ cfg : Config, cfg.wf = true →
    (∀ u v : Text, cfg.commentChar ∉ u →
      decodeLine cfg (u ++ cfg.commentChar :: v) = decodeLine cfg u) ∧
    (∀ u : Text, cfg.commentChar ∉ u →
      (decodeLine cfg u = .skip ↔ ∀ c ∈ u, isWhitespace c = true)) ∧
    (∀ (n : Nat) (u : Text) (rest : List Text) (M : Program) (D : List Diagnostic),
      decodeLine cfg u = .skip → loadLines cfg n (u :: rest) M D = loadLines cfg (n + 1) rest M D)

/-- Derived from R64 and R65: whitespace around a line, a CR before its end among it, changes nothing. -/
def Obligations.SurroundingWhitespaceIsIgnored : Prop :=
  ∀ (cfg : Config) (before raw after : Text), cfg.wf = true →
    (∀ c ∈ before, isWhitespace c = true) → (∀ c ∈ after, isWhitespace c = true) →
    decodeLine cfg (before ++ raw ++ after) = decodeLine cfg raw

/-- Derived from R21, R69, R70 and R86: `upper` maps each of `a`..`z` to `A`..`Z` and leaves every other
character unchanged, character by character; and a line decodes as its upper-cased text does. -/
def Obligations.LetterCaseIsIgnored : Prop :=
  ("abcdefghijklmnopqrstuvwxyz".toList.map (fun c => upper [c]) =
      "ABCDEFGHIJKLMNOPQRSTUVWXYZ".toList.map (fun c => [c]) ∧
    (∀ c : Char, c ∉ "abcdefghijklmnopqrstuvwxyz".toList → upper [c] = [c]) ∧
    ∀ s t : Text, upper (s ++ t) = upper s ++ upper t) ∧
  ∀ (cfg : Config) (raw : Text), cfg.wf = true → decodeLine cfg (upper raw) = decodeLine cfg raw

/-- Derived from R83 and R70: the whole opcode map and the eight register names, no other text among them. -/
def Obligations.OpcodeAndRegisterMaps : Prop :=
  (∀ (s : Text) (op : Operation), opOfMnemonic s = some op ↔
    (s, op) ∈ [(['A', 'D', 'D'], Operation.increment), (['S', 'U', 'B'], Operation.decrement),
      (['Z', 'E', 'R'], Operation.testZero)]) ∧
  (∀ (s : Text) (r : Reg), regOfName s = some r ↔
    (s, r) ∈ [(['A'], Reg.A), (['B'], Reg.B), (['C'], Reg.C), (['D'], Reg.D), (['E'], Reg.E),
      (['F'], Reg.F), (['G'], Reg.G), (['H'], Reg.H)])

/-- R74, with the order of R73: a line that is blank after step 1 is skipped; any other reports the first
failure of the nine in the order given, with its label where step 2 accepted one, and decodes to the record
of R75 where there is none. -/
def Obligations.FirstFailureInOrderIsReported : Prop :=
  ∀ (cfg : Config) (raw : Text),
    (cleanLine cfg raw = [] → decodeLine cfg raw = .skip) ∧
    (cleanLine cfg raw ≠ [] → ':' ∉ cleanLine cfg raw →
      decodeLine cfg raw = .err (.malformedLine .noSeparator) none) ∧
    ∀ lp ip : Text, cleanLine cfg raw = lp ++ ':' :: ip → ':' ∉ lp →
      (isIntLiteral (trim lp) = false → decodeLine cfg raw = .err (.malformedLine .badLabel) none) ∧
      (isIntLiteral (trim lp) = true → intValue (trim lp) < 0 →
        decodeLine cfg raw = .err (.malformedLine .negativeLabel) none) ∧
      ∀ l : Nat, isIntLiteral (trim lp) = true → intValue (trim lp) = l →
        (tokens ip = [] → decodeLine cfg raw = .err (.malformedLine .missingField) (some l)) ∧
        ∀ (m : Text) (rest : List Text), tokens ip = m :: rest →
          (opOfMnemonic (upper m) = none → decodeLine cfg raw = .err .unknownOperation (some l)) ∧
          ∀ op : Operation, opOfMnemonic (upper m) = some op →
            (rest = [] → decodeLine cfg raw = .err (.malformedLine .missingField) (some l)) ∧
            ∀ (g : Text) (ts : List Text), rest = g :: ts →
              (regOfName (upper g) = none → decodeLine cfg raw = .err .unknownRegister (some l)) ∧
              ∀ r : Reg, regOfName (upper g) = some r →
                (ts.length ≠ op.arity → decodeLine cfg raw = .err .arityMismatch (some l)) ∧
                (ts.length = op.arity → (∃ t ∈ ts, isIntLiteral t = false) →
                  decodeLine cfg raw = .err (.malformedLine .badTarget) (some l)) ∧
                (ts.length = op.arity → (∀ t ∈ ts, isIntLiteral t = true) →
                  ∃ i : Instr, decodeLine cfg raw = .ok l i ∧ i.record l =
                    { label := l, operation := op, register := r, targets := ts.map intValue })

/-- Derived from R61 and R74: a line decodes to an instruction exactly when it has that instruction's form. -/
def Obligations.DecodedLinesHaveTheirForm : Prop :=
  ∀ (cfg : Config) (raw : Text) (l : Nat) (i : Instr), decodeLine cfg raw = .ok l i ↔
    ∃ (lp ip m g : Text) (ts : List Text), cleanLine cfg raw = lp ++ ':' :: ip ∧ ':' ∉ lp ∧
      isIntLiteral (trim lp) = true ∧ intValue (trim lp) = l ∧ tokens ip = m :: g :: ts ∧
      upper m = i.operation.mnemonic ∧ upper g = [i.register.letter] ∧
      (∀ t ∈ ts, isIntLiteral t = true) ∧ ts.map intValue = i.targets

/-- Derived from R37 and R75: a record of the source is well formed exactly when its label is not negative and
it has the targets of its operation, two for TEST_ZERO and one for the others; such records are the records of
instructions at labels; and each is the record of one instruction at one label only. -/
def Obligations.WellFormedRecordsAreInstructions : Prop :=
  ∀ r : SourceRecord,
    (r.wf = true ↔ 0 ≤ r.label ∧ r.targets.length = if r.operation = .testZero then 2 else 1) ∧
    (r.wf = true ↔ ∃ (l : Nat) (i : Instr), r = i.record l) ∧
    ∀ (l : Nat) (i : Instr), r.toInstr = some (l, i) ↔ r = i.record l

/-- Words written out from R61, one byte a character (log 4), decode to the instructions they stand for:
`1: ADD A 2`, `2:sub a 3`, `  007 :  Zer   h  -3   +4  # c`; and `3: FOO A 1` to none. -/
def Obligations.WrittenWordsDecode : Prop :=
  decodeTableWord 80 0x32204120444441203a31 = some (.add .A 2) ∧
  decodeTableWord 72 0x332061206275733a32 = some (.sub .A 3) ∧
  decodeTableWord 240 0x6320232020342b202020332d20206820202072655a20203a203730302020 =
    some (.zer .H (-3) 4) ∧
  decodeTableWord 80 0x312041204f4f46203a33 = none

end Decoder

section RoundTrips

/-- Decode and encode agree: the canonical line (R88) of every instruction at every label decodes (R74) to
that label and that instruction, for every comment character R11 admits. -/
def Obligations.EncodedLinesDecodeBack : Prop :=
  ∀ (cfg : Config) (l : Nat) (i : Instr), cfg.wf = true → decodeLine cfg (encodeLine l i) = .ok l i

/-- The same through the number form of a line (log 4): no bit of an encoded line is dropped. -/
def Obligations.EncodedWordsDecodeBack : Prop :=
  ∀ (l : Nat) (i : Instr),
    decodeTableWord (bitsOfLine (encodeLine l i)) (wordOfLine (encodeLine l i)) = some i

/-- R89: parsing a serialised program gives the program back, without a diagnostic; the converse does not
hold for arbitrary text. -/
def Obligations.SerializedProgramsLoadBack : Prop :=
  (∀ (cfg : Config) (P : Program), cfg.wf = true → P.WF →
    load cfg (some (serialize P)) = .loaded P []) ∧
  ∃ (cfg : Config) (lines : List Text) (P : Program) (D : List Diagnostic), cfg.wf = true ∧
    load cfg (some lines) = .loaded P D ∧ serialize P ≠ lines

end RoundTrips

section Loader

/-- R60: a source with a character above 0x7F, and no other, is refused as a whole. -/
def Obligations.NonAsciiSourcesAreRefused : Prop :=
  ∀ (cfg : Config) (lines : List Text), load cfg (some lines) = .nonAsciiSource ↔
    ∃ line ∈ lines, ∃ c ∈ line, 0x7F < c.toNat

/-- Derived from R59: a line ends at LF; and a missing source, alone, is `MissingSource`. That a last piece
without LF is a line is the model's choice (log 6, DESIGN CHOICE): R59 says only that a line ends at LF. -/
def Obligations.StreamsAreCutAtLineFeeds : Prop :=
  (∀ line rest : Text, '\n' ∉ line → splitLines (line ++ '\n' :: rest) = line :: splitLines rest) ∧
  (∀ line : Text, '\n' ∉ line → line ≠ [] → splitLines line = [line]) ∧
  (∀ (cfg : Config) (source : Option Text), loadText cfg source = .missingSource ↔ source = none)

/-- R78: the load fails with `EmptyProgram` exactly when no line decodes, and reports the per-line
diagnostics with it. -/
def Obligations.NoDecodedLineIsEmptyProgram : Prop :=
  ∀ (cfg : Config) (lines : List Text), (∀ line ∈ lines, ∀ c ∈ line, isAscii c = true) →
    (∀ D, load cfg (some lines) = .emptyProgram D ↔
      (∀ line ∈ lines, decodedEntry cfg line = none) ∧ D = lineDiagnostics cfg lines) ∧
    load cfg (some []) = .emptyProgram []

/-- Derived from R76, R78 and R81: ASCII lines of which at least one decodes load, always under `LAST_WINS`
and under `REJECT` where no label is defined twice; `DuplicateLabel` is answered only under `REJECT`, for a
label that is; and a load that succeeds stores under each label the last line that defines it, and nothing
under any other. Under `REJECT` a load that succeeds has only one such line. -/
def Obligations.LastDefinitionOfALabelWins : Prop :=
  ∀ (cfg : Config) (lines : List Text),
    ((∀ line ∈ lines, ∀ c ∈ line, isAscii c = true) →
      (∃ line ∈ lines, ∃ l i, decodeLine cfg line = .ok l i) →
      (cfg.duplicatePolicy = .reject → (decodedLabels cfg lines).Nodup) →
      ∃ P D, load cfg (some lines) = .loaded P D) ∧
    (∀ D, load cfg (some lines) = .duplicateLabel D →
      cfg.duplicatePolicy = .reject ∧ ¬ (decodedLabels cfg lines).Nodup) ∧
    ∀ (P : Program) (D : List Diagnostic), load cfg (some lines) = .loaded P D →
      (∀ l : Nat, fetch P l =
        ((lines.filterMap (decodedEntry cfg)).reverse.find? (fun e => e.1 == l)).map Prod.snd) ∧
      (cfg.duplicatePolicy = .reject → (decodedLabels cfg lines).Nodup)

/-- Derived from R76, `REJECT`: the first line that defines a label again ends the load with `DuplicateLabel`, which
names that line; the lines after it are not decoded. -/
def Obligations.SecondDefinitionIsRejected : Prop :=
  ∀ (cfg : Config) (before after : List Text) (raw : Text) (l : Nat) (i : Instr),
    cfg.duplicatePolicy = .reject →
    (∀ line ∈ before ++ raw :: after, ∀ c ∈ line, isAscii c = true) →
    (decodedLabels cfg before).Nodup → l ∈ decodedLabels cfg before → decodeLine cfg raw = .ok l i →
    load cfg (some (before ++ raw :: after)) = .duplicateLabel (lineDiagnostics cfg before ++
      [{ kind := .duplicateLabel, lineNumber := before.length + 1, label := some l, text := raw }])

/-- R77: a line that fails changes no entry, and the lines after it are loaded as without it; its failure is
recorded, and loading goes on with the next line. -/
def Obligations.FailedLinesChangeNoEntry : Prop :=
  ∀ (cfg : Config) (before after : List Text) (raw : Text) (k : DiagKind) (lab : Option Nat),
    (∀ c ∈ raw, isAscii c = true) → decodeLine cfg raw = .err k lab →
    loadedProgram (load cfg (some (before ++ raw :: after))) =
      loadedProgram (load cfg (some (before ++ after))) ∧
    ∀ (n : Nat) (rest : List Text) (M : Program) (D : List Diagnostic),
      loadLines cfg n (raw :: rest) M D = loadLines cfg (n + 1) rest M
        (D ++ [{ kind := k, lineNumber := n, label := lab, text := raw }])

/-- Derived from R80: a load that succeeds lists one diagnostic for each failing line, in line order. -/
def Obligations.DiagnosticsAreTheFailingLinesInOrder : Prop :=
  ∀ (cfg : Config) (lines : List Text) (P : Program) (D : List Diagnostic),
    load cfg (some lines) = .loaded P D → D = lineDiagnostics cfg lines

/-- Derived from R38 and R45: what the load port returns is a canonical instruction memory with an entry,
and storing an entry keeps that form and is read back. -/
def Obligations.LoadedProgramsAreWellFormed : Prop :=
  (∀ (cfg : Config) (source : Option (List Text)) (P : Program) (D : List Diagnostic),
    load cfg source = .loaded P D → P.WF) ∧
  (∀ (P : Program) (l : Nat) (i : Instr), P.Canonical → (programInsert P l i).WF ∧
    ∀ t : Int, fetch (programInsert P l i) t = if t = l then some i else fetch P t)

/-- R79: the start label of a mapping that is not empty is its least key. -/
def Obligations.StartLabelIsTheLeastKey : Prop :=
  ∀ P : Program, P.entries ≠ [] → ∃ m : Nat, startLabel P = some m ∧
    isDefined P m = true ∧ ∀ t : Int, isDefined P t = true → (m : Int) ≤ t

/-- Derived from R19 and R53: a negative value names no instruction. -/
def Obligations.NegativeValuesAreNeverDefined : Prop :=
  ∀ (P : Program) (t : Int), t < 0 → isDefined P t = false ∧ fetch P t = none

end Loader

section Instructions

/-- Derived from R105 and R110: ADD adds one to its register and goes to its target, nothing else changing;
under `BITS(w)` at `2^w - 1` it writes nothing and ends the run with a `RegisterOverflow`; and its canonical
line decodes to it. That the overflow is answered as a next state, `FAULTED` with the label and the register
in the run state, is the model's choice (log 5, DEDUCED). -/
def Obligations.AddIncrementsAndJumps : Prop :=
  (∀ (r : Reg) (t : Int) (s : State), (∀ w, s.cfg.regBound = .bits w → s.readReg r ≠ 2 ^ w - 1) →
    ∃ s', exec (.add r t) s = .next s' ∧ s'.readReg r = s.readReg r + 1 ∧
      (∀ q, q ≠ r → s'.readReg q = s.readReg q) ∧ s'.pc = some t ∧ s'.prog = s.prog ∧
      s'.runState = s.runState ∧ s'.abortReq = s.abortReq ∧ s'.trace = s.trace ∧
      s'.diagnostics = s.diagnostics ∧ s'.cfg = s.cfg) ∧
  (∀ (r : Reg) (t l : Int) (s : State) (w : Nat), s.cfg.regBound = .bits w →
    s.readReg r = 2 ^ w - 1 → s.pc = some l →
    exec (.add r t) s = .next { s with runState := .faulted l r }) ∧
  (∀ (cfg : Config) (l : Nat) (r : Reg) (t : Int), cfg.wf = true →
    decodeLine cfg (encodeLine l (.add r t)) = .ok l (.add r t))

/-- R106: SUB takes one from its register, or leaves it at 0, and goes to its target in both cases, at any
register width, nothing else changing; and its canonical line decodes to it. -/
def Obligations.SubDecrementsAndJumps : Prop :=
  (∀ (r : Reg) (t : Int) (s : State),
    ∃ s', exec (.sub r t) s = .next s' ∧ (s'.readReg r : Int) = max 0 ((s.readReg r : Int) - 1) ∧
      (∀ q, q ≠ r → s'.readReg q = s.readReg q) ∧ s'.pc = some t ∧ s'.prog = s.prog ∧
      s'.runState = s.runState ∧ s'.abortReq = s.abortReq ∧ s'.trace = s.trace ∧
      s'.diagnostics = s.diagnostics ∧ s'.cfg = s.cfg) ∧
  (∀ (cfg : Config) (l : Nat) (r : Reg) (t : Int), cfg.wf = true →
    decodeLine cfg (encodeLine l (.sub r t)) = .ok l (.sub r t))

/-- R107: ZER goes to its first target if its register is 0 and to its second if it is not, and changes
nothing but the program counter; and its canonical line decodes to it. -/
def Obligations.ZerTestsAndBranches : Prop :=
  (∀ (r : Reg) (t0 t1 : Int) (s : State),
    ∃ s', exec (.zer r t0 t1) s = .next s' ∧ (s.readReg r = 0 → s'.pc = some t0) ∧
      (s.readReg r ≠ 0 → s'.pc = some t1) ∧ (∀ q, s'.readReg q = s.readReg q) ∧
      s'.prog = s.prog ∧ s'.runState = s.runState ∧ s'.abortReq = s.abortReq ∧
      s'.trace = s.trace ∧ s'.diagnostics = s.diagnostics ∧ s'.cfg = s.cfg) ∧
  (∀ (cfg : Config) (l : Nat) (r : Reg) (t0 t1 : Int), cfg.wf = true →
    decodeLine cfg (encodeLine l (.zer r t0 t1)) = .ok l (.zer r t0 t1))

/-- Derived from R18 and R25: the register file is eight independent cells. -/
def Obligations.RegistersAreIndependentCells : Prop :=
  ∀ (x : RegFile) (r q : Reg) (v u : Nat),
    (x.write r v).read q = (if q = r then v else x.read q) ∧
    (r ≠ q → (x.write r v).write q u = (x.write q u).write r v) ∧
    (x.write r v).write r u = x.write r u ∧ r ∈ Reg.all ∧ Reg.all.length = 8

end Instructions

section OneStep

/-- Derived from R95 and R96: while `pc` names an instruction of the program, a step emits the `STEP`
snapshot, runs that instruction as `exec` does, and then checks for an abort. -/
def Obligations.StepRunsTheFetchedInstruction : Prop :=
  ∀ (s : State) (P : Program) (t : Int) (i : Instr), s.runState = .running → s.prog = some P →
    s.pc = some t → fetch P t = some i →
    step s = afterInstr (exec i (s.emit
      { tag := .step, registers := s.x, pc := t, description := some (describe s.cfg t.toNat i) }))

/-- Derived from R59, R74, R91 and R96 (log 3): a machine given one line that decodes to an instruction
runs exactly that instruction, at the line's label, as its next step. -/
def Obligations.StepRunsTheLoadedLine : Prop :=
  ∀ (s : State) (nbits w l : Nat) (i : Instr), (∀ c ∈ lineOfWord nbits w, isAscii c = true) →
    decodeLine s.cfg (lineOfWord nbits w) = .ok l i →
    (s.withFetchWord nbits w).pc = some (l : Int) ∧
    step (s.withFetchWord nbits w) =
      afterInstr (exec i ((s.withFetchWord nbits w).emitStep l i))

/-- Derived from R31, R32 and R110: after a step `pc` is a target of the instruction that ran, or, where
the step halted or faulted, what it was. That a step that faults answers a next state is the model's choice
(log 5, DEDUCED). -/
def Obligations.ProgramCounterComesFromTargets : Prop :=
  ∀ (s s' : State), step s = .next s' →
    (∃ P t i u, s.prog = some P ∧ s.pc = some t ∧ fetch P t = some i ∧ s'.pc = some u ∧
      u ∈ i.targets ∧ (s'.runState = .running ∨ s'.runState = .aborted)) ∨
    (s'.pc = s.pc ∧ (s'.runState = .halted ∨ ∃ l r, s'.runState = .faulted l r))

/-- Derived from R28: a step writes at most the register that the instruction it runs names, and none of them for a ZER
or a halt. -/
def Obligations.StepWritesOnlyTheNamedRegister : Prop :=
  ∀ (s s' : State) (q : Reg), step s = .next s' → s'.readReg q ≠ s.readReg q →
    ∃ P t u, s.prog = some P ∧ s.pc = some t ∧
      (fetch P t = some (.add q u) ∨ fetch P t = some (.sub q u))

/-- Derived from R96 and R99: each step emits one snapshot, with the registers and the `pc` from before it: a `STEP`
snapshot with the instruction's description while `pc` names one, else the `HALTED` snapshot. That a step
that faults is among them is the model's choice (log 5, DEDUCED). -/
def Obligations.StepEmitsOneSnapshot : Prop :=
  ∀ (s s' : State), step s = .next s' → ∃ P t, s.prog = some P ∧ s.pc = some t ∧
    ((∃ i, fetch P t = some i ∧ s'.trace = s.trace ++
        [⟨.step, s.x, t, some (describe s.cfg t.toNat i)⟩]) ∨
     (isDefined P t = false ∧
       s'.trace = s.trace ++ [{ tag := .halted, registers := s.x, pc := t, description := none }]))

end OneStep

section EndOfRun

/-- R99 and R33: when `pc` names no instruction the machine emits the halted snapshot, is `HALTED`, returns
its registers, and keeps `pc`. An abort request does not change this. -/
def Obligations.UndefinedPcHalts : Prop :=
  ∀ (s : State) (P : Program) (t : Int), s.runState = .running → s.prog = some P → s.pc = some t →
    isDefined P t = false → ∃ s', step s = .next s' ∧ s'.runState = .halted ∧
      s'.trace = s.trace ++ [{ tag := .halted, registers := s.x, pc := t, description := none }] ∧
      s'.result = some (.halted s.x) ∧ s'.pc = some t ∧ s'.x = s.x ∧ s'.prog = s.prog ∧
      s'.abortReq = s.abortReq ∧ s'.diagnostics = s.diagnostics ∧ s'.cfg = s.cfg

/-- Derived from R100: an undefined `pc` is the only way to halt. -/
def Obligations.OnlyAnUndefinedPcHalts : Prop :=
  ∀ (s s' : State), step s = .next s' → s'.runState = .halted →
    s.runState = .running ∧ ∃ P t, s.prog = some P ∧ s.pc = some t ∧ isDefined P t = false

/-- Derived from R98, with R113 item 3: where the abort input exists and is raised, the run ends `ABORTED` right after an
instruction that has not faulted, whether or not its target is defined; the instruction has all its effect and no
halted snapshot is emitted. -/
def Obligations.AbortEndsTheRunAfterTheInstruction : Prop :=
  ∀ (s u : State) (P : Program) (t : Int) (i : Instr), s.runState = .running → s.prog = some P →
    s.pc = some t → fetch P t = some i → s.cfg.abortSupported = true → s.abortReq = true →
    exec i (s.emitStep t i) = .next u → u.runState = .running →
    step s = .next { u with runState := .aborted } ∧
      ({ u with runState := .aborted } : State).result = some (.aborted u.x) ∧
      u.trace = s.trace ++ [stepSnapshot s.cfg s.x t i]

/-- Derived from R14, R39 and R98: a run ends `ABORTED` only where the block has the abort input and the
host has raised it; the abort input changes nothing else. R39 speaks of a request during a run: that
`raiseAbort` sets the flag in every run state, before and after a run too, and that a block without the input
refuses it by `abortNotSupported`, are the model's choices (log 10, DESIGN CHOICE). -/
def Obligations.OnlyAnAbortRequestAborts : Prop :=
  (∀ (s s' : State), step s = .next s' → s'.runState = .aborted →
    s.cfg.abortSupported = true ∧ s.abortReq = true) ∧
  (∀ s : State, s.cfg.abortSupported = true → raiseAbort s = .next { s with abortReq := true }) ∧
  (∀ s : State, s.cfg.abortSupported = false → raiseAbort s = .refused .abortNotSupported)

/-- Derived from R110, R111 and R113 items 2 and 4: the step of an ADD at the bound emits its `STEP`
snapshot, leaves the registers and `pc`, ends the run `FAULTED` with that label and register, an abort request
or not, and no step follows. That the step answers a next state (log 5, DEDUCED), and that the step after it
answers the fault `registerOverflow` (logs 5 and 9, DESIGN CHOICE), are the model's choices. -/
def Obligations.OverflowEndsTheRunFaulted : Prop :=
  ∀ (s : State) (P : Program) (t u : Int) (r : Reg) (w : Nat), s.runState = .running →
    s.prog = some P → s.pc = some t → fetch P t = some (.add r u) → s.cfg.regBound = .bits w →
    s.readReg r = 2 ^ w - 1 → ∃ s', step s = .next s' ∧ s'.x = s.x ∧ s'.pc = s.pc ∧
      s'.runState = .faulted t r ∧ s'.trace = s.trace ++ [stepSnapshot s.cfg s.x t (.add r u)] ∧
      s'.result = some (.faulted s.x t r) ∧ s'.prog = s.prog ∧ s'.abortReq = s.abortReq ∧
      s'.diagnostics = s.diagnostics ∧ s'.cfg = s.cfg ∧
      step s' = .fault (.registerOverflow t r)

/-- Derived from R36, R109 and R110: a step ends a run `FAULTED` only for an ADD at the bound of `BITS(w)`.
That the overflow ends a run in a next state is the model's choice (log 5, DEDUCED). -/
def Obligations.OnlyAnOverflowFaults : Prop :=
  ∀ (s s' : State) (l : Int) (r : Reg), step s = .next s' → s'.runState = .faulted l r →
    ∃ P t w, s.prog = some P ∧ s.pc = some l ∧ fetch P l = some (.add r t) ∧
      s.cfg.regBound = .bits w ∧ s.readReg r = 2 ^ w - 1

/-- Derived from R111 and, for the other ends of a run, R36: no step follows the end of a run. The answers
the model gives instead, `.refused runEnded` (log 9, DESIGN CHOICE) and `.fault registerOverflow` (logs 5,
DEDUCED, and 9), are its choices. -/
def Obligations.EndedRunsTakeNoStep : Prop :=
  ∀ s : State, (∀ l r, s.runState = .faulted l r → step s = .fault (.registerOverflow l r)) ∧
    (s.runState = .halted ∨ s.runState = .aborted → step s = .refused .runEnded) ∧
    (s.ended = true → ∀ s', step s ≠ .next s')

/-- Derived from R24, R29 and R91: before a run there is no step; a machine state that a run reaches never
reads an `UNSET` program counter and never lacks its program, and where one would, it stops. The names of the
stops are the model's choices (log 9, DESIGN CHOICE; log 11, DEDUCED). -/
def Obligations.UnsetStateIsNeverRead : Prop :=
  (∀ s : State, s.runState = .idle → step s = .refused .runNotStarted) ∧
  (∀ s : State, s.Inv → step s ≠ .fault .pcUnset ∧ step s ≠ .refused .noProgram) ∧
  (∀ (s : State) (P : Program), s.runState = .running → s.prog = some P → s.pc = none →
    step s = .fault .pcUnset) ∧
  (∀ (s : State) (r : Reg) (t : Int) (w : Nat), s.cfg.regBound = .bits w →
    s.readReg r = 2 ^ w - 1 → s.pc = none → exec (.add r t) s = .fault .pcUnset) ∧
  (∀ s : State, s.runState = .running → s.prog = none → step s = .refused .noProgram)

end EndOfRun

section StartOfRun

/-- R124: every field at construction, whatever the parameters, and so right after reset. -/
def Obligations.ConstructionLeavesTheResetValues : Prop :=
  ∀ s : State, (s = State.reset ∨ ∃ cfg, s = State.construct cfg) →
    (∀ r : Reg, s.readReg r = 0) ∧ s.pc = none ∧ s.prog = none ∧ s.runState = .idle ∧
      s.abortReq = false ∧ s.trace = [] ∧ s.diagnostics = []

/-- Derived from R92, R62 and R26: a value given as text is the integer its trimmed text is a literal of, or
none where it is no literal; a register can hold an integer that is not negative and is below `2^w` under
`BITS(w)`; and which value each register has at the start of a run: that of the last entry whose key names it,
and 0 where there is none; or the run is refused under `NEG_INIT_POLICY = REFUSE`. -/
def Obligations.InitialRegistersFollowTheEntries : Prop :=
  (∀ t : Text, (isIntLiteral (trim t) = true → initInteger (.text t) = some (intValue (trim t))) ∧
    (isIntLiteral (trim t) = false → initInteger (.text t) = none)) ∧
  (∀ v : Int, initInteger (.int v) = some v) ∧
  (∀ (b : RegBound) (v : Int), b.holds v = true ↔ 0 ≤ v ∧ ∀ w, b = .bits w → v < 2 ^ w) ∧
  ∀ (s : State) (P : Program) (entries : List InitEntry), s.runState = .idle → P.WF →
    (s.cfg.negInitPolicy = .refuse →
      (∃ e ∈ entries, (∃ r, entryNames r e = true) ∧ entryUnrepresentable s.cfg e = true) →
      startRun s (some P) entries = .refused .unrepresentableInitialValue) ∧
    ((s.cfg.negInitPolicy = .refuse → ∀ e ∈ entries, (∃ r, entryNames r e = true) →
        entryUnrepresentable s.cfg e = false) →
      ∃ s', startRun s (some P) entries = .next s' ∧ ∀ r : Reg, s'.readReg r =
        ((entries.reverse.find? (entryNames r)).map (entryValue s.cfg)).getD 0)

/-- Derived from R92 and R93: the warnings of a run: those of its entries, in their order; the run starts
all the same. Under `NEG_INIT_POLICY = REFUSE` too, where no entry gives a known register a value that it
cannot hold (one that does refuses the run, `InitialRegistersFollowTheEntries`): unknown keys and texts that
are no integers are reported then as well. What integer a value is, and which of them a register can hold,
says `InitialRegistersFollowTheEntries`. The form of a warning's contents is the model's choice (log 7,
DEDUCED). -/
def Obligations.InitialRegisterWarnings : Prop :=
  ∀ (s : State) (P : Program) (entries : List InitEntry), s.runState = .idle → P.WF →
    (s.cfg.negInitPolicy = .refuse → ∀ e ∈ entries, (∃ r, entryNames r e = true) →
      entryUnrepresentable s.cfg e = false) →
    ∃ s', startRun s (some P) entries = .next s' ∧
      s'.diagnostics = s.diagnostics ++ entries.flatMap (entryWarnings s.cfg)

/-- R94: what a start of a run leaves: the program, `pc` at the start label, `RUNNING`, no abort request, and
the entry snapshot with the initial registers. -/
def Obligations.StartOfRunSetsTheMachine : Prop :=
  ∀ (s s' : State) (program : Option Program) (entries : List InitEntry),
    startRun s program entries = .next s' → ∃ P start, program = some P ∧ startLabel P = some start ∧
      s'.prog = some P ∧ s'.pc = some (start : Int) ∧ s'.runState = .running ∧ s'.abortReq = false ∧
      s'.trace = s.trace ++ [{ tag := .entry, registers := s'.x, pc := start, description := none }] ∧
      s'.cfg = s.cfg

/-- Derived from R91 and R36: a run needs a program that the load port can return, and a machine state whose
run has not started; such a program is exactly one that some load returns. That any such program is admitted,
whichever load returned it, is the model's choice (log 8, DEDUCED), and so is the refusal of a used machine
state by the name `machineStateUsed` (log 9, DESIGN CHOICE). -/
def Obligations.RunsNeedALoadedProgram : Prop :=
  (∀ (s : State) (entries : List InitEntry), s.runState = .idle →
    startRun s none entries = .refused .noProgram) ∧
  (∀ (s : State) (P : Program) (entries : List InitEntry), s.runState = .idle → ¬ P.WF →
    startRun s (some P) entries = .refused .noProgram) ∧
  (∀ (s : State) (program : Option Program) (entries : List InitEntry), s.runState ≠ .idle →
    startRun s program entries = .refused .machineStateUsed) ∧
  (∀ (cfg : Config) (P : Program), cfg.wf = true →
    (P.WF ↔ ∃ source D, load cfg source = .loaded P D))

end StartOfRun

section Invariants

/-- The reset state satisfies the invariant of machine states. -/
def Obligations.ResetSatisfiesTheInvariant : Prop := State.reset.Inv

/-- The start of a run, and a raised abort request, keep the invariant (R26, R94). -/
def Obligations.PortsKeepTheInvariant : Prop :=
  (∀ (s s' : State) (program : Option Program) (entries : List InitEntry), s.Inv →
    startRun s program entries = .next s' → s'.Inv) ∧
  (∀ s s' : State, s.Inv → raiseAbort s = .next s' → s'.Inv)

/-- Every step keeps the invariant: registers stay in their domain (R26), the program stays a canonical
instruction memory (R45, R46), a halted machine's `pc` is undefined and its trace ends in the halted
snapshot (R99, R101), and a faulted machine stands at the ADD that overflowed (R110; that it is a next state
is the model's choice, log 5, DEDUCED). -/
def Obligations.StepsKeepTheInvariant : Prop :=
  ∀ s s' : State, s.Inv → step s = .next s' → s'.Inv

/-- Derived from R95, R102 and R110: while its run goes on a machine has a next state, at any register width;
and an unbounded one takes a safe step. R102 names the register overflow as its one exception: that the
overflowing step, too, answers a next state is the model's choice (log 5, DEDUCED). -/
def Obligations.RunningMachinesAlwaysStep : Prop :=
  ∀ s : State, s.Inv → s.runState = .running → (∃ s', step s = .next s') ∧
    (s.cfg.regBound = .unbounded → SafeStep s)

end Invariants

section Runs

/-- Derived from R102: under `REG_BOUND = UNBOUNDED` a run that has started never faults and is never refused
before it has ended: after any number of steps there is a next state, or the run had ended before. The answer
`.refused runEnded` after its end is the model's choice (log 9, DESIGN CHOICE). -/
def Obligations.UnboundedRunsAreTotal : Prop :=
  ∀ (s s1 : State) (program : Option Program) (entries : List InitEntry),
    s.cfg.regBound = .unbounded → startRun s program entries = .next s1 →
    ∀ k : Nat, (∃ s', Host.Core.run Sys2Proof.core k s1 = .next s' ∧ ∀ l r, s'.runState ≠ .faulted l r) ∨
      (∃ j s', j < k ∧ Host.Core.run Sys2Proof.core j s1 = .next s' ∧ s'.ended = true ∧
        Host.Core.run Sys2Proof.core k s1 = .refused .runEnded)

/-- R27: a register that no instruction of the program names keeps its value for the whole run, and that value
is in the final register set. -/
def Obligations.UnnamedRegistersKeepTheirValues : Prop :=
  ∀ (k : Nat) (s s' : State) (P : Program) (q : Reg), s.prog = some P →
    (∀ e ∈ P.entries, e.2.register ≠ q) → Host.Core.run Sys2Proof.core k s = .next s' →
    s'.readReg q = s.readReg q ∧ ∀ x : RegFile, s'.result = some (.halted x) ∨
      s'.result = some (.aborted x) ∨ (∃ l r, s'.result = some (.faulted x l r)) →
      x.read q = s.readReg q

/-- Derived from R46, R57 and R41: no number of steps changes the program, the parameters, the abort
request or the warnings, and the trace is only added to (R42), by one snapshot a step. That a step that
faults is among them is the model's choice (log 5, DEDUCED). -/
def Obligations.RunsNeverChangeTheProgram : Prop :=
  ∀ (k : Nat) (s s' : State), Host.Core.run Sys2Proof.core k s = .next s' →
    s'.prog = s.prog ∧ s'.cfg = s.cfg ∧ s'.abortReq = s.abortReq ∧ s'.diagnostics = s.diagnostics ∧
      ∃ more, s'.trace = s.trace ++ more ∧ more.length = k

/-- Derived from R101: the trace of a run that halts is the entry snapshot, one `STEP` snapshot for each
step, and the halted snapshot: `n + 2` snapshots for `n` steps, with `n` at least 1. -/
def Obligations.HaltedRunsHaveTheirTrace : Prop :=
  ∀ (cfg : Config) (s1 s' : State) (program : Option Program) (entries : List InitEntry) (k : Nat),
    startRun (State.construct cfg) program entries = .next s1 →
    Host.Core.run Sys2Proof.core k s1 = .next s' → s'.runState = .halted →
    ∃ n start steps last, k = n + 1 ∧ 1 ≤ n ∧ s'.trace = start :: steps ++ [last] ∧
      s'.trace.length = n + 2 ∧ start.tag = .entry ∧ (∀ snap ∈ steps, snap.tag = .step) ∧
      last.tag = .halted ∧ last.registers = s'.x ∧ s'.pc = some last.pc

/-- Derived from R16, R41 and R42: no rule reads the trace, the warnings or the description text: two
machines that differ in those alone take the same step. -/
def Obligations.TraceAndDescriptionAreNeverRead : Prop :=
  ∀ s1 s2 : State, s1.unobserved = s2.unobserved →
    unobservedOutcome (step s1) = unobservedOutcome (step s2)

/-- Derived from R90, R103 and R131: where a run without an abort request ends within the turns given, the run
port leaves the state in which it ended, however many turns it is given. That the port is given its turns is
the model's choice (log 12, DESIGN CHOICE). -/
def Obligations.RunPortReturnsTheEndedRun : Prop :=
  ∀ (s s1 s' : State) (program : Option Program) (entries : List InitEntry) (k turns : Nat),
    startRun s program entries = .next s1 → Host.Core.run Sys2Proof.core k s1 = .next s' →
    s'.ended = true → k ≤ turns →
    runPort (List.replicate turns false) s program entries = .next s'

/-- Derived from R39, R98, R103, R113 and R130: the abort request that the host raises during a run, after any
number `k` of its steps, ends the run that the run port runs with the next turn, whatever the host does after
it. Where `pc` names an instruction that does not fault, the run ends `ABORTED` after that instruction, with all
its effect, and the port returns the registers as they stand; one that faults ends it `FAULTED`; and where `pc`
names none the run has halted before the request is seen. That the port is given the host's requests turn by
turn (log 12, DESIGN CHOICE), that a block without the abort input refuses one (log 10, DESIGN CHOICE), and that
a faulting step answers a next state (log 5, DEDUCED), are the model's choices. -/
def Obligations.RunPortEndsAtTheHostsRequest : Prop :=
  ∀ (s s1 u : State) (program : Option Program) (entries : List InitEntry) (k : Nat) (later : List Bool)
    (P : Program) (t : Int),
    startRun s program entries = .next s1 → Host.Core.run Sys2Proof.core k s1 = .next u →
    u.runState = .running → u.prog = some P → u.pc = some t →
    (s.cfg.abortSupported = false →
      runPort (List.replicate k false ++ true :: later) s program entries = .refused .abortNotSupported) ∧
    (s.cfg.abortSupported = true → ∃ s',
      runPort (List.replicate k false ++ true :: later) s program entries = .next s' ∧
      (isDefined P t = false → s'.result = some (.halted u.x) ∧
        s'.trace = u.trace ++ [haltedSnapshot u.x t]) ∧
      ∀ (i : Instr) (v : State), fetch P t = some i → exec i (u.emitStep t i) = .next v →
        (v.runState = .running →
          s' = { v with abortReq := true, runState := .aborted } ∧ s'.result = some (.aborted v.x)) ∧
        (∀ l r, v.runState = .faulted l r →
          s' = { v with abortReq := true } ∧ s'.result = some (.faulted u.x l r)))

end Runs
end

