-- ==== Sys2Proof/Laws/Text.lean ====
section
/-! SUPPORT. The text operations: characters, trimming, splitting, tokens, and decimal numbers. -/

namespace Sys2Proof.Machine

section Characters

/-- A character is its code. -/
theorem char_eq_iff (c d : Char) : c = d ↔ c.toNat = d.toNat :=
  ⟨fun h => h ▸ rfl, fun h => Char.ext (UInt32.toNat_inj.1 h)⟩

theorem toNat_ofNat_of_lt {n : Nat} (h : n < 0xD800) : (Char.ofNat n).toNat = n := by
  have hv : n.isValidChar := .inl h
  simp only [Char.ofNat, hv, dif_pos, Char.toNat, Char.ofNatAux]
  rfl

/-- What upper-casing does to a character's code (R21). -/
theorem toNat_upperChar (c : Char) :
    (upperChar c).toNat = if 0x61 ≤ c.toNat ∧ c.toNat ≤ 0x7A then c.toNat - 0x20 else c.toNat := by
  unfold upperChar isLower
  by_cases h : 0x61 ≤ c.toNat ∧ c.toNat ≤ 0x7A
  · rw [if_pos (by simpa using h), if_pos h, toNat_ofNat_of_lt (by omega)]
  · rw [if_neg (by simpa using h), if_neg h]

theorem isWhitespace_iff (c : Char) :
    isWhitespace c = true ↔ c.toNat = 0x20 ∨ (0x09 ≤ c.toNat ∧ c.toNat ≤ 0x0D) := by
  simp [isWhitespace]

theorem isDigit_iff (c : Char) : isDigit c = true ↔ 0x30 ≤ c.toNat ∧ c.toNat ≤ 0x39 := by
  simp [isDigit]

@[simp] theorem isWhitespace_upperChar (c : Char) : isWhitespace (upperChar c) = isWhitespace c := by
  rw [Bool.eq_iff_iff, isWhitespace_iff, isWhitespace_iff, toNat_upperChar]
  split <;> omega

@[simp] theorem isDigit_upperChar (c : Char) : isDigit (upperChar c) = isDigit c := by
  rw [Bool.eq_iff_iff, isDigit_iff, isDigit_iff, toNat_upperChar]
  split <;> omega

/-- Upper-casing neither makes nor removes a character that is no letter. -/
theorem upperChar_eq_iff {c d : Char} (h : isLetter d = false) : upperChar c = d ↔ c = d := by
  have hd : ¬((0x61 ≤ d.toNat ∧ d.toNat ≤ 0x7A) ∨ (0x41 ≤ d.toNat ∧ d.toNat ≤ 0x5A)) := by
    simpa [isLetter, isLower] using h
  rw [char_eq_iff, char_eq_iff, toNat_upperChar]
  split <;> omega

@[simp] theorem upperChar_upperChar (c : Char) : upperChar (upperChar c) = upperChar c := by
  rw [char_eq_iff, toNat_upperChar, toNat_upperChar]
  split_ifs <;> omega

end Characters

section Splitting

/-- A split at the first `c` puts it together again. -/
theorem splitFirst_eq_some {c : Char} {s a b : Text} :
    splitFirst c s = some (a, b) ↔ s = a ++ c :: b ∧ c ∉ a := by
  induction s generalizing a with
  | nil => simp [splitFirst]
  | cons d s ih =>
    simp only [splitFirst]
    by_cases h : d = c
    · subst h
      simp only [beq_self_eq_true, if_true, Option.some.injEq, Prod.mk.injEq]
      constructor
      · rintro ⟨rfl, rfl⟩; simp
      · rintro ⟨h1, h2⟩
        cases a with
        | nil => simpa using h1
        | cons e a => simp only [List.cons_append, List.cons.injEq] at h1; simp [h1.1] at h2
    · rw [if_neg (by simpa using h)]
      cases a with
      | nil =>
        constructor
        · intro h'; split at h' <;> simp at h'
        · rintro ⟨h1, -⟩; simp only [List.nil_append, List.cons.injEq] at h1; exact absurd h1.1 h
      | cons e a =>
        have ih' := @ih a
        constructor
        · intro h'
          split at h'
          · simp at h'
          · next x y hxy =>
            simp only [Option.some.injEq, Prod.mk.injEq, List.cons.injEq] at h'
            obtain ⟨⟨rfl, rfl⟩, rfl⟩ := h'
            obtain ⟨rfl, h4⟩ := ih'.1 hxy
            exact ⟨rfl, by simp [h4, Ne.symm h]⟩
        · rintro ⟨h1, h2⟩
          simp only [List.cons_append, List.cons.injEq] at h1
          obtain ⟨rfl, rfl⟩ := h1
          rw [ih'.2 ⟨rfl, fun hm => h2 (List.mem_cons_of_mem _ hm)⟩]

/-- There is no split exactly where the character does not occur. -/
theorem splitFirst_eq_none {c : Char} {s : Text} : splitFirst c s = none ↔ c ∉ s := by
  induction s with
  | nil => simp [splitFirst]
  | cons d s ih =>
    simp only [splitFirst]
    by_cases h : d = c
    · simp [h]
    · rw [if_neg (by simpa using h)]
      cases hs : splitFirst c s with
      | none => simpa [Ne.symm h] using ih.1 hs
      | some p =>
        have hn : c ∈ s := by
          by_contra hc
          rw [ih.2 hc] at hs
          cases hs
        simp [hn]

/-- Cutting at a character that occurs. -/
theorem cutAt_append {c : Char} {u : Text} (v : Text) (h : c ∉ u) : cutAt c (u ++ c :: v) = u := by
  unfold cutAt
  rw [List.takeWhile_append_of_pos (by intro d hd; simp; rintro rfl; exact h hd)]
  simp

theorem cutAt_of_not_mem {c : Char} {u : Text} (h : c ∉ u) : cutAt c u = u := by
  unfold cutAt
  rw [List.takeWhile_eq_self_iff]
  intro d hd
  simp only [bne_iff_ne, ne_eq]
  rintro rfl
  exact h hd

end Splitting

section Trimming

theorem trimLeft_append_of_whitespace {a : Text} (s : Text) (h : ∀ c ∈ a, isWhitespace c = true) :
    trimLeft (a ++ s) = trimLeft s := List.dropWhile_append_of_pos h

theorem trimRight_append_of_whitespace (s : Text) {b : Text} (h : ∀ c ∈ b, isWhitespace c = true) :
    trimRight (s ++ b) = trimRight s := by
  unfold trimRight
  rw [List.reverse_append, List.dropWhile_append_of_pos (by simpa using h)]

theorem trimLeft_of_whitespace {s : Text} (h : ∀ c ∈ s, isWhitespace c = true) : trimLeft s = [] := by
  simpa [trimLeft, List.dropWhile_eq_nil_iff] using h

/-- A text that begins with a character that is no whitespace has nothing to trim there. -/
theorem trimLeft_cons {c : Char} (s : Text) (h : isWhitespace c = false) : trimLeft (c :: s) = c :: s := by
  simp [trimLeft, h]

theorem trimRight_concat {c : Char} (s : Text) (h : isWhitespace c = false) :
    trimRight (s ++ [c]) = s ++ [c] := by
  simp [trimRight, h]

/-- A text that begins and ends with no whitespace is its own trimming. -/
theorem trim_eq_self {s : Text} (h1 : ∀ c ∈ s.head?, isWhitespace c = false)
    (h2 : ∀ c ∈ s.getLast?, isWhitespace c = false) : trim s = s := by
  cases s with
  | nil => rfl
  | cons c s =>
    unfold trim
    rw [trimLeft_cons s (h1 c (by simp))]
    rcases List.eq_nil_or_concat (c :: s) with h | ⟨t, d, h⟩
    · simp at h
    · rw [List.concat_eq_append] at h
      rw [h] at h2 ⊢
      exact trimRight_concat t (h2 d (by simp))

end Trimming

section Tokens

/-- Whitespace before a text adds no token. -/
theorem tokens_whitespace_append {a : Text} (s : Text) (h : ∀ c ∈ a, isWhitespace c = true) :
    tokens (a ++ s) = tokens s := by
  induction a with
  | nil => rfl
  | cons c a ih =>
    rw [List.cons_append, tokens, if_pos (h c (by simp)), ih (fun d hd => h d (by simp [hd]))]

/-- A piece without whitespace that ends where a token can end is the first token. -/
theorem tokens_append {t s : Text} (hne : t ≠ []) (ht : ∀ c ∈ t, isWhitespace c = false)
    (hs : endsToken s = true) : tokens (t ++ s) = t :: tokens s := by
  induction t with
  | nil => exact absurd rfl hne
  | cons c t ih =>
    have hc := ht c (by simp)
    rw [List.cons_append, tokens, if_neg (by simp [hc])]
    cases t with
    | nil => rw [List.nil_append, if_pos hs]
    | cons d t =>
      have hd := ht d (by simp)
      rw [if_neg (by simp [endsToken, hd]), ih (by simp) (fun e he => ht e (by simp at he ⊢; tauto))]
      rfl

end Tokens

section Numbers

theorem natValue_append (s : Text) (c : Char) : natValue (s ++ [c]) = 10 * natValue s + digitValue c := by
  simp [natValue]

theorem toNat_digitChar {n : Nat} (h : n < 10) : (digitChar n).toNat = 0x30 + n :=
  toNat_ofNat_of_lt (by omega)

theorem isDigit_digitChar {n : Nat} (h : n < 10) : isDigit (digitChar n) = true := by
  rw [isDigit_iff, toNat_digitChar h]; omega

theorem digitValue_digitChar {n : Nat} (h : n < 10) : digitValue (digitChar n) = n := by
  rw [digitValue, toNat_digitChar h]; omega

theorem natTextAux_spec (fuel n : Nat) (h : n < fuel) : natTextAux fuel n ≠ [] ∧
    (∀ c ∈ natTextAux fuel n, isDigit c = true) ∧ natValue (natTextAux fuel n) = n := by
  induction fuel generalizing n with
  | zero => omega
  | succ fuel ih =>
    simp only [natTextAux]
    split
    · next hn =>
      exact ⟨by simp, by simpa using isDigit_digitChar hn, by simp [natValue, digitValue_digitChar hn]⟩
    · next hn =>
      have hm : n % 10 < 10 := Nat.mod_lt _ (by omega)
      obtain ⟨h1, h2, h3⟩ := ih (n / 10) (by omega)
      refine ⟨by simp, ?_, ?_⟩
      · intro c hc
        rcases List.mem_append.1 hc with hc | hc
        · exact h2 c hc
        · rw [List.mem_singleton.1 hc]; exact isDigit_digitChar hm
      · rw [natValue_append, h3, digitValue_digitChar hm]; omega

theorem natText_ne_nil (n : Nat) : natText n ≠ [] := (natTextAux_spec (n + 1) n (by omega)).1

theorem isDigit_of_mem_natText {n : Nat} {c : Char} (h : c ∈ natText n) : isDigit c = true :=
  (natTextAux_spec (n + 1) n (by omega)).2.1 c h

@[simp] theorem natValue_natText (n : Nat) : natValue (natText n) = n :=
  (natTextAux_spec (n + 1) n (by omega)).2.2

/-- What the digits of a number are not. -/
theorem isWhitespace_of_isDigit {c : Char} (h : isDigit c = true) : isWhitespace c = false := by
  rw [isDigit_iff] at h
  rw [← Bool.not_eq_true, isWhitespace_iff]
  omega

theorem dropSign_of_isDigit {c : Char} (s : Text) (h : isDigit c = true) :
    dropSign (c :: s) = c :: s := by
  have hp : c ≠ '+' := by rintro rfl; simp [isDigit] at h
  have hm : c ≠ '-' := by rintro rfl; simp [isDigit] at h
  simp [dropSign, hp, hm]

theorem intValue_of_isDigit {c : Char} (s : Text) (h : isDigit c = true) :
    intValue (c :: s) = natValue (c :: s) := by
  have hm : c ≠ '-' := by rintro rfl; simp [isDigit] at h
  rw [intValue, dropSign_of_isDigit s h]
  simp [hm]

/-- The canonical text of a natural number is an integer literal with its value. -/
theorem natText_literal (n : Nat) : isIntLiteral (natText n) = true ∧ intValue (natText n) = n := by
  obtain ⟨c, s, hs⟩ := List.exists_cons_of_ne_nil (natText_ne_nil n)
  have hc : isDigit c = true := isDigit_of_mem_natText (hs ▸ List.mem_cons_self)
  have hall : ∀ d ∈ natText n, isDigit d = true := fun d hd => isDigit_of_mem_natText hd
  constructor
  · rw [isIntLiteral, hs, dropSign_of_isDigit s hc, ← hs]
    simpa [isDigits, natText_ne_nil] using hall
  · rw [hs, intValue_of_isDigit s hc, ← hs, natValue_natText]

/-- The canonical text of an integer is an integer literal with its value (R62, R88). -/
theorem intText_literal (z : Int) : isIntLiteral (intText z) = true ∧ intValue (intText z) = z := by
  cases z with
  | ofNat n => exact natText_literal n
  | negSucc n =>
    have hall : ∀ d ∈ natText (n + 1), isDigit d = true := fun d hd => isDigit_of_mem_natText hd
    constructor
    · simpa [isIntLiteral, intText, dropSign, isDigits, natText_ne_nil] using hall
    · simp [intText, intValue, Int.negSucc_eq]

theorem intText_ne_nil (z : Int) : intText z ≠ [] := by
  cases z with
  | ofNat n => exact natText_ne_nil n
  | negSucc n => simp [intText]

/-- The characters of a canonical integer are `-` and digits. -/
theorem mem_intText {z : Int} {c : Char} (h : c ∈ intText z) : c = '-' ∨ isDigit c = true := by
  cases z with
  | ofNat n => exact .inr (isDigit_of_mem_natText h)
  | negSucc n =>
    rcases List.mem_cons.1 h with h | h
    · exact .inl h
    · exact .inr (isDigit_of_mem_natText h)

end Numbers

end Sys2Proof.Machine
end

