-- ==== Sys2Proof/Laws/Decode.lean ====
section
/-! SUPPORT. The decoder's maps, its behaviour on a line split at its separator, and the characters that a
canonical line is made of. -/

namespace Sys2Proof.Machine

section Maps

@[simp] theorem regOfName_letter (r : Reg) : regOfName [r.letter] = some r := by cases r <;> rfl

theorem regOfName_eq_some {s : Text} {r : Reg} : regOfName s = some r ↔ s = [r.letter] := by
  constructor
  · intro h; simpa using List.find?_some h
  · rintro rfl; exact regOfName_letter r

@[simp] theorem opOfMnemonic_mnemonic (op : Operation) : opOfMnemonic op.mnemonic = some op := by
  cases op <;> rfl

theorem opOfMnemonic_eq_some {s : Text} {op : Operation} :
    opOfMnemonic s = some op ↔ s = op.mnemonic := by
  constructor
  · intro h; simpa using List.find?_some h
  · rintro rfl; exact opOfMnemonic_mnemonic op

@[simp] theorem upper_letter (r : Reg) : upper [r.letter] = [r.letter] := by cases r <;> decide

@[simp] theorem upper_mnemonic (op : Operation) : upper op.mnemonic = op.mnemonic := by
  cases op <;> decide

/-- The parts of an instruction make it again. -/
@[simp] theorem instrOf_parts (i : Instr) : instrOf i.operation i.register i.targets = some i := by
  cases i <;> rfl

theorem instrOf_eq_some {op : Operation} {r : Reg} {ts : List Int} {i : Instr} :
    instrOf op r ts = some i ↔ op = i.operation ∧ r = i.register ∧ ts = i.targets := by
  constructor
  · intro h
    cases op <;> rcases ts with _ | ⟨t, _ | ⟨t', _ | ⟨t'', ts⟩⟩⟩ <;> simp only [instrOf] at h <;>
      cases h <;> exact ⟨rfl, rfl, rfl⟩
  · rintro ⟨rfl, rfl, rfl⟩; exact instrOf_parts i

/-- As many targets as the operation carries make an instruction (R37). -/
theorem exists_instrOf {op : Operation} (r : Reg) {ts : List Int} (h : ts.length = op.arity) :
    ∃ i, instrOf op r ts = some i := by
  cases op <;> rcases ts with _ | ⟨t, _ | ⟨t', _ | ⟨t'', ts⟩⟩⟩ <;> simp_all [Operation.arity, instrOf]

@[simp] theorem length_targets (i : Instr) : i.targets.length = i.operation.arity := by cases i <;> rfl

end Maps

section Lines

/-- A line with a separator decodes by its label portion and then by its fields. -/
theorem decodeLine_of_clean {cfg : Config} {raw lp ip : Text} (h : cleanLine cfg raw = lp ++ ':' :: ip)
    (hn : ':' ∉ lp) : decodeLine cfg raw =
      if !isIntLiteral (trim lp) then .err (.malformedLine .badLabel) none
      else if intValue (trim lp) < 0 then .err (.malformedLine .negativeLabel) none
      else decodeFields (intValue (trim lp)).toNat (tokens ip) := by
  have hs : splitFirst ':' (lp ++ ':' :: ip) = some (lp, ip) := splitFirst_eq_some.2 ⟨rfl, hn⟩
  simp only [decodeLine, h, hs]
  simp

/-- A line with fields that decode. -/
theorem decodeFields_of_form {l : Nat} {m g : Text} {ts : List Text} {i : Instr}
    (hm : upper m = i.operation.mnemonic) (hg : upper g = [i.register.letter])
    (hts : ∀ t ∈ ts, isIntLiteral t = true) (hv : ts.map intValue = i.targets) :
    decodeFields l (m :: g :: ts) = .ok l i := by
  have hlen : ts.length = i.operation.arity := by
    rw [← length_targets i, ← hv, List.length_map]
  have hall : ts.all isIntLiteral = true := by simpa using hts
  simp [decodeFields, hm, hg, hlen, hall, hv]

end Lines

section CanonicalLines

theorem isDigit_ne_colon {c : Char} (h : isDigit c = true) : c ≠ ':' := by
  rintro rfl; simp [isDigit] at h

/-- The characters of a canonical line (R88): digits, letters, `-`, `:` and spaces. -/
theorem mem_encodeLine {l : Nat} {i : Instr} {c : Char} (h : c ∈ encodeLine l i) :
    isDigit c = true ∨ isLetter c = true ∨ c = '-' ∨ c = ':' ∨ c = ' ' := by
  have hm : ∀ op : Operation, ∀ c ∈ op.mnemonic, isLetter c = true := by
    intro op; cases op <;> simp [Operation.mnemonic, isLetter, isLower]
  have hr : ∀ r : Reg, isLetter r.letter = true := by intro r; cases r <;> decide
  simp only [encodeLine, encodeFields, List.mem_append, List.mem_cons, List.mem_flatten,
    List.mem_map] at h
  rcases h with h | rfl | rfl | h | rfl | rfl | ⟨_, ⟨t, -, rfl⟩, h⟩
  · exact .inl (isDigit_of_mem_natText h)
  · simp
  · simp
  · exact .inr (.inl (hm _ c h))
  · simp
  · exact .inr (.inl (hr _))
  · rcases List.mem_cons.1 h with rfl | h
    · simp
    · rcases mem_intText h with rfl | h
      · simp
      · exact .inl h

/-- A canonical line holds no comment character. -/
theorem commentChar_not_mem_encodeLine {cfg : Config} (h : cfg.wf = true) (l : Nat) (i : Instr) :
    cfg.commentChar ∉ encodeLine l i := by
  intro hm
  simp only [Config.wf, commentCharOk, Bool.and_eq_true, bne_iff_ne, ne_eq, Bool.not_eq_eq_eq_not,
    Bool.not_true] at h
  obtain ⟨-, ⟨⟨⟨⟨h1, h2⟩, h3⟩, h4⟩, h5⟩, h6⟩ := h
  rcases mem_encodeLine hm with h | h | h | h | h
  · simp [h] at h4
  · simp [h] at h3
  · exact h6 h
  · exact h1 h
  · rw [h] at h2; simp [isWhitespace] at h2

/-- A canonical line is ASCII (R60). -/
theorem isAscii_of_mem_encodeLine {l : Nat} {i : Instr} {c : Char} (h : c ∈ encodeLine l i) :
    isAscii c = true := by
  have key : c.toNat ≤ 0x7F := by
    rcases mem_encodeLine h with h | h | rfl | rfl | rfl
    · rw [isDigit_iff] at h; omega
    · simp only [isLetter, isLower, Bool.or_eq_true, Bool.and_eq_true, decide_eq_true_eq] at h; omega
    all_goals decide
  simpa [isAscii] using key

/-- A canonical line has nothing to trim. -/
theorem trim_encodeLine (l : Nat) (i : Instr) : trim (encodeLine l i) = encodeLine l i := by
  refine trim_eq_self ?_ ?_
  · intro c hc
    obtain ⟨d, s, hs⟩ := List.exists_cons_of_ne_nil (natText_ne_nil l)
    simp only [encodeLine, hs, List.cons_append, List.head?_cons, Option.mem_some_iff] at hc
    subst hc
    exact isWhitespace_of_isDigit (isDigit_of_mem_natText (hs ▸ List.mem_cons_self))
  · have key : ∀ (a : Text) (z : Int), ∀ c ∈ (a ++ intText z).getLast?, isWhitespace c = false := by
      intro a z c hc
      rw [List.getLast?_append_of_ne_nil _ (intText_ne_nil z)] at hc
      rcases mem_intText (List.mem_of_getLast? hc) with rfl | h
      · decide
      · exact isWhitespace_of_isDigit h
    have split : ∃ a z, encodeLine l i = a ++ intText z := by
      cases i with
      | add r t => exact ⟨natText l ++ ':' :: ' ' :: 'A' :: 'D' :: 'D' :: ' ' :: r.letter :: [' '], t,
          by simp [encodeLine, encodeFields, Instr.operation, Operation.mnemonic, Instr.targets,
            Instr.register]⟩
      | sub r t => exact ⟨natText l ++ ':' :: ' ' :: 'S' :: 'U' :: 'B' :: ' ' :: r.letter :: [' '], t,
          by simp [encodeLine, encodeFields, Instr.operation, Operation.mnemonic, Instr.targets,
            Instr.register]⟩
      | zer r t t' => exact ⟨natText l ++ ':' :: ' ' :: 'Z' :: 'E' :: 'R' :: ' ' :: r.letter :: ' ' ::
          intText t ++ [' '], t', by simp [encodeLine, encodeFields, Instr.operation,
            Operation.mnemonic, Instr.targets, Instr.register]⟩
    obtain ⟨a, z, h⟩ := split
    rw [h]
    exact key a z

/-- The clean form of a canonical line is itself. -/
theorem cleanLine_encodeLine {cfg : Config} (h : cfg.wf = true) (l : Nat) (i : Instr) :
    cleanLine cfg (encodeLine l i) = encodeLine l i := by
  rw [cleanLine, trim_encodeLine, cutAt_of_not_mem (commentChar_not_mem_encodeLine h l i),
    trim_encodeLine]

/-- The tokens of canonical targets, after anything that ends in a token. -/
theorem tokens_targets (ts : List Int) :
    tokens ((ts.map (fun t => ' ' :: intText t)).flatten) = ts.map intText ∧
      endsToken ((ts.map (fun t => ' ' :: intText t)).flatten) = true := by
  induction ts with
  | nil => exact ⟨rfl, rfl⟩
  | cons t ts ih =>
    refine ⟨?_, rfl⟩
    have hw : ∀ c ∈ intText t, isWhitespace c = false := by
      intro c hc
      rcases mem_intText hc with rfl | h
      · decide
      · exact isWhitespace_of_isDigit h
    simp only [List.map_cons, List.flatten_cons, List.cons_append]
    rw [tokens, if_pos (by decide), tokens_append (intText_ne_nil t) hw ih.2, ih.1]

/-- The tokens of the instruction portion of a canonical line. -/
theorem tokens_encodeFields (i : Instr) : tokens (' ' :: encodeFields i) =
    i.operation.mnemonic :: [i.register.letter] :: i.targets.map intText := by
  have hm : ∀ op : Operation, op.mnemonic ≠ [] ∧ ∀ c ∈ op.mnemonic, isWhitespace c = false := by
    intro op; cases op <;> simp [Operation.mnemonic, isWhitespace]
  have hr : ∀ r : Reg, ∀ c ∈ [r.letter], isWhitespace c = false := by
    intro r; cases r <;> simp [Reg.letter, isWhitespace]
  obtain ⟨h1, h2⟩ := tokens_targets i.targets
  rw [tokens, if_pos (by decide), encodeFields, tokens_append (hm _).1 (hm _).2 (by rfl), tokens,
    if_pos (by decide), ← List.singleton_append (x := i.register.letter),
    tokens_append (by simp) (hr _) h2, h1]

end CanonicalLines

end Sys2Proof.Machine
end

