-- ==== Sys2Proof/Laws/Memory.lean ====
section
/-! SUPPORT. The instruction memory: read after insert, the canonical form, and the start label. -/

namespace Sys2Proof.Machine

/-- Where every key of a list exceeds `l`, `l` has no record. -/
theorem lookupLabel_eq_none_of_lt {es : List (Nat × Instr)} {l : Nat}
    (h : ∀ e ∈ es, l < e.1) : lookupLabel es l = none := by
  induction es with
  | nil => rfl
  | cons e rest ih =>
    have he := h e (by simp)
    simp only [lookupLabel]
    rw [if_neg (by omega), ih (fun e' he' => h e' (by simp [he']))]

/-- A record that is read is listed. -/
theorem mem_of_lookupLabel {es : List (Nat × Instr)} {l : Nat} {i : Instr}
    (h : lookupLabel es l = some i) : (l, i) ∈ es := by
  induction es with
  | nil => simp [lookupLabel] at h
  | cons e rest ih =>
    simp only [lookupLabel] at h
    split at h
    · next hk => cases h; subst hk; simp
    · exact List.mem_cons_of_mem _ (ih h)

/-- In a canonical list, what is listed is what is read. -/
theorem lookupLabel_of_mem {es : List (Nat × Instr)} (hc : es.Pairwise (fun a b => a.1 < b.1))
    {l : Nat} {i : Instr} (h : (l, i) ∈ es) : lookupLabel es l = some i := by
  induction es with
  | nil => simp at h
  | cons e rest ih =>
    rw [List.pairwise_cons] at hc
    rcases List.mem_cons.1 h with rfl | h'
    · simp [lookupLabel]
    · have hlt := hc.1 _ h'
      simp only [lookupLabel]
      rw [if_neg (by simp only at hlt; omega), ih hc.2 h']

/-- Every entry after an insertion is the new one or an old one. -/
theorem mem_insertLabel {es : List (Nat × Instr)} {l : Nat} {i : Instr} {e : Nat × Instr}
    (h : e ∈ insertLabel es l i) : e = (l, i) ∨ e ∈ es := by
  induction es with
  | nil => simpa [insertLabel] using h
  | cons e' rest ih =>
    simp only [insertLabel] at h
    split at h
    · simpa using h
    · split at h
      · rcases List.mem_cons.1 h with h | h
        · exact .inl h
        · exact .inr (List.mem_cons_of_mem _ h)
      · rcases List.mem_cons.1 h with h | h
        · exact .inr (h ▸ List.mem_cons_self)
        · exact (ih h).imp_right (List.mem_cons_of_mem _)

/-- An insertion keeps the canonical form. -/
theorem insertLabel_canonical {es : List (Nat × Instr)} (hc : es.Pairwise (fun a b => a.1 < b.1))
    (l : Nat) (i : Instr) : (insertLabel es l i).Pairwise (fun a b => a.1 < b.1) := by
  induction es with
  | nil => simp [insertLabel]
  | cons e rest ih =>
    have hc' := List.pairwise_cons.1 hc
    simp only [insertLabel]
    split
    · next hl =>
      refine List.pairwise_cons.2 ⟨fun e' he' => ?_, hc⟩
      rcases List.mem_cons.1 he' with rfl | he'
      · exact hl
      · exact Nat.lt_trans hl (hc'.1 _ he')
    · split
      · next hl => subst hl; exact List.pairwise_cons.2 ⟨hc'.1, hc'.2⟩
      · next h1 h2 =>
        refine List.pairwise_cons.2 ⟨fun e' he' => ?_, ih hc'.2⟩
        rcases mem_insertLabel he' with rfl | he'
        · exact lt_of_le_of_ne (Nat.le_of_not_lt h1) (Ne.symm h2)
        · exact hc'.1 _ he'

/-- Read after insert. -/
theorem lookupLabel_insertLabel {es : List (Nat × Instr)} (hc : es.Pairwise (fun a b => a.1 < b.1))
    (l : Nat) (i : Instr) (k : Nat) :
    lookupLabel (insertLabel es l i) k = if l = k then some i else lookupLabel es k := by
  induction es with
  | nil => simp [insertLabel, lookupLabel]
  | cons e rest ih =>
    have hc' := List.pairwise_cons.1 hc
    simp only [insertLabel]
    split
    · simp [lookupLabel]
    · split
      · next hl =>
        subst hl
        by_cases hk : e.1 = k <;> simp [lookupLabel, hk]
      · next h1 h2 =>
        simp only [lookupLabel, ih hc'.2]
        by_cases hk : e.1 = k
        · rw [if_pos hk, if_neg (by omega), if_pos hk]
        · rw [if_neg hk, if_neg hk]

theorem insertLabel_ne_nil (es : List (Nat × Instr)) (l : Nat) (i : Instr) :
    (insertLabel es l i).isEmpty = false := by
  cases es with
  | nil => rfl
  | cons e rest => simp only [insertLabel]; split <;> [rfl; (split <;> rfl)]

/-- Inserting above every key appends. -/
theorem insertLabel_append {es : List (Nat × Instr)} {l : Nat} (i : Instr)
    (h : ∀ e ∈ es, e.1 < l) : insertLabel es l i = es ++ [(l, i)] := by
  induction es with
  | nil => rfl
  | cons e rest ih =>
    have he := h e (by simp)
    simp only [insertLabel]
    rw [if_neg (by omega), if_neg (by omega), ih (fun e' he' => h e' (by simp [he']))]
    rfl

theorem programInsert_wf {P : Program} (h : P.Canonical) (l : Nat) (i : Instr) :
    (programInsert P l i).WF :=
  ⟨insertLabel_ne_nil _ _ _, insertLabel_canonical h l i⟩

@[simp] theorem fetch_ofNat (P : Program) (l : Nat) : fetch P (l : Int) = lookupLabel P.entries l := rfl

@[simp] theorem fetch_negSucc (P : Program) (n : Nat) : fetch P (Int.negSucc n) = none := rfl

/-- A value that names an instruction is a label (R19, R53). -/
theorem exists_label_of_fetch {P : Program} {t : Int} {i : Instr} (h : fetch P t = some i) :
    ∃ l : Nat, t = l ∧ lookupLabel P.entries l = some i := by
  cases t with
  | ofNat l => exact ⟨l, rfl, h⟩
  | negSucc n => simp at h

theorem foldl_min_le (es : List (Nat × Instr)) (m : Nat) :
    es.foldl (fun m e => min m e.1) m ≤ m ∧ ∀ e ∈ es, es.foldl (fun m e => min m e.1) m ≤ e.1 := by
  induction es generalizing m with
  | nil => simp
  | cons e rest ih =>
    obtain ⟨h1, h2⟩ := ih (min m e.1)
    simp only [List.foldl_cons, List.mem_cons]
    refine ⟨by omega, fun e' he' => ?_⟩
    rcases he' with rfl | he'
    · omega
    · exact h2 e' he'

/-- The start label of a canonical program is its first key. -/
theorem startLabel_of_canonical {e : Nat × Instr} {rest : List (Nat × Instr)}
    (hc : (e :: rest).Pairwise (fun a b => a.1 < b.1)) :
    startLabel { entries := e :: rest } = some e.1 := by
  have h := (List.pairwise_cons.1 hc).1
  suffices ∀ (es : List (Nat × Instr)) (m : Nat), (∀ e' ∈ es, m < e'.1) →
      es.foldl (fun m e => min m e.1) m = m by
    simp [startLabel, this rest e.1 h]
  intro es
  induction es with
  | nil => intros; rfl
  | cons e' rest' ih =>
    intro m hm
    have := hm e' (by simp)
    rw [List.foldl_cons, Nat.min_eq_left (by omega)]
    exact ih m (fun e'' he'' => hm e'' (by simp [he'']))

/-- A program with an entry has a start label, and that label is defined. -/
theorem startLabel_defined {P : Program} (h : P.WF) :
    ∃ l i, startLabel P = some l ∧ lookupLabel P.entries l = some i := by
  obtain ⟨es⟩ := P
  cases es with
  | nil => simp [Program.WF] at h
  | cons e rest => exact ⟨e.1, e.2, startLabel_of_canonical h.2, by simp [lookupLabel]⟩

end Sys2Proof.Machine
end

