-- ==== Sys2Proof/Laws/Loader.lean ====
section
/-! SUPPORT. What the load port does with lines that define no label twice, and what it can answer. -/

namespace Sys2Proof.Machine

section Lines

variable (cfg : Config)

@[simp] theorem lineDiagnosticsFrom_nil (n : Nat) : lineDiagnosticsFrom cfg n [] = [] := rfl

@[simp] theorem storeLines_nil (M : Program) : storeLines cfg M [] = M := rfl

@[simp] theorem decodedLabels_nil : decodedLabels cfg [] = [] := rfl

theorem lineDiagnosticsFrom_append (n : Nat) (a b : List Text) : lineDiagnosticsFrom cfg n (a ++ b) =
    lineDiagnosticsFrom cfg n a ++ lineDiagnosticsFrom cfg (n + a.length) b := by
  simp [lineDiagnosticsFrom, List.zipIdx_append, List.filterMap_append]

theorem decodedLabels_append (a b : List Text) :
    decodedLabels cfg (a ++ b) = decodedLabels cfg a ++ decodedLabels cfg b := by
  simp [decodedLabels]

theorem storeLines_append (M : Program) (a b : List Text) :
    storeLines cfg M (a ++ b) = storeLines cfg (storeLines cfg M a) b := by
  simp [storeLines]

variable {cfg}

/-- Storing lines keeps the canonical form. -/
theorem storeLines_canonical {M : Program} (h : M.Canonical) (lines : List Text) :
    (storeLines cfg M lines).Canonical := by
  unfold storeLines
  generalize lines.filterMap (decodedEntry cfg) = es
  induction es generalizing M with
  | nil => exact h
  | cons e es ih => exact ih (programInsert_wf h e.1 e.2).2

/-- What is stored under a label after some lines: the last record for it, else what there was. -/
theorem lookup_storeLines {M : Program} (h : M.Canonical) (lines : List Text) (l : Nat) :
    lookupLabel (storeLines cfg M lines).entries l =
      (((lines.filterMap (decodedEntry cfg)).reverse.find? (fun e => e.1 == l)).map Prod.snd).or
        (lookupLabel M.entries l) := by
  unfold storeLines
  generalize lines.filterMap (decodedEntry cfg) = es
  induction es generalizing M with
  | nil => simp
  | cons e es ih =>
    rw [List.foldl_cons, ih (programInsert_wf h e.1 e.2).2, List.reverse_cons, List.find?_append]
    simp only [programInsert, lookupLabel_insertLabel h]
    cases es.reverse.find? (fun e => e.1 == l) with
    | some e' => simp
    | none =>
      by_cases hk : e.1 = l <;> simp [hk]

/-- A label is stored after some lines exactly when a line defines it or it was there. -/
theorem isSome_lookup_storeLines {M : Program} (h : M.Canonical) (lines : List Text) (l : Nat) :
    (lookupLabel (storeLines cfg M lines).entries l).isSome = true ↔
      l ∈ decodedLabels cfg lines ∨ (lookupLabel M.entries l).isSome = true := by
  have hl : l ∈ decodedLabels cfg lines ↔ ∃ i, (l, i) ∈ lines.filterMap (decodedEntry cfg) := by
    rw [decodedLabels, ← List.map_filterMap]
    simp
  rw [lookup_storeLines h, hl]
  cases hf : (lines.filterMap (decodedEntry cfg)).reverse.find? (fun e => e.1 == l) with
  | some e =>
    have h1 := List.mem_of_find?_eq_some hf
    have h2 := List.find?_some hf
    simp only [beq_iff_eq] at h2
    subst h2
    simp only [Option.map_some, Option.some_or, Option.isSome_some, true_iff]
    exact .inl ⟨e.2, List.mem_reverse.1 h1⟩
  | none =>
    have h1 := List.find?_eq_none.1 hf
    simp only [Option.map_none, Option.none_or]
    constructor
    · exact .inr
    · rintro (⟨i, hi⟩ | h)
      · exact absurd (by simp) (h1 (l, i) (List.mem_reverse.2 hi))
      · exact h

theorem storeLines_isEmpty {M : Program} (lines : List Text) (hM : M.entries.isEmpty = true) :
    (storeLines cfg M lines).entries.isEmpty = true ↔ ∀ line ∈ lines, decodedEntry cfg line = none := by
  unfold storeLines
  rw [← List.filterMap_eq_nil_iff]
  generalize lines.filterMap (decodedEntry cfg) = es
  cases es with
  | nil => simp [hM]
  | cons e es =>
    have key : ∀ (es : List (Nat × Instr)) (N : Program), N.entries.isEmpty = false →
        (es.foldl (fun N e => programInsert N e.1 e.2) N).entries.isEmpty = false := by
      intro es
      induction es with
      | nil => intro N hN; exact hN
      | cons e es ih => intro N _; exact ih _ (insertLabel_ne_nil _ _ _)
    rw [List.foldl_cons, key es (programInsert M e.1 e.2) (insertLabel_ne_nil _ _ _)]
    simp

end Lines

section Loading

variable {cfg : Config}

/-- Lines that define no label twice, and none that is stored, are all stored, whatever follows them; under
`LAST_WINS` any lines are. -/
theorem loadLines_append {before : List Text} (after : List Text) {n : Nat} {M : Program}
    {D : List Diagnostic} (hM : M.Canonical)
    (h : cfg.duplicatePolicy = .reject → (decodedLabels cfg before).Nodup ∧
      ∀ l ∈ decodedLabels cfg before, lookupLabel M.entries l = none) :
    loadLines cfg n (before ++ after) M D = loadLines cfg (n + before.length) after
      (storeLines cfg M before) (D ++ lineDiagnosticsFrom cfg n before) := by
  induction before generalizing n M D with
  | nil => simp
  | cons raw rest ih =>
    have hlen : n + (raw :: rest).length = n + 1 + rest.length := by simp; omega
    rw [List.cons_append, loadLines, hlen]
    cases hd : decodeLine cfg raw with
    | skip =>
      have h1 : decodedEntry cfg raw = none := by simp [decodedEntry, hd]
      have h2 : ∀ n, lineDiagnostic cfg raw n = none := by simp [lineDiagnostic, hd]
      have hs : storeLines cfg M (raw :: rest) = storeLines cfg M rest := by simp [storeLines, h1]
      have hl : decodedLabels cfg (raw :: rest) = decodedLabels cfg rest := by simp [decodedLabels, h1]
      rw [hl] at h
      simp only [hs, ih hM h]
      simp [lineDiagnosticsFrom, h2]
    | err k lab =>
      have h1 : decodedEntry cfg raw = none := by simp [decodedEntry, hd]
      have h2 : ∀ n, lineDiagnostic cfg raw n = some ⟨k, n, lab, raw⟩ := by simp [lineDiagnostic, hd]
      have hs : storeLines cfg M (raw :: rest) = storeLines cfg M rest := by simp [storeLines, h1]
      have hl : decodedLabels cfg (raw :: rest) = decodedLabels cfg rest := by simp [decodedLabels, h1]
      rw [hl] at h
      simp only [hs, ih hM h]
      simp [lineDiagnosticsFrom, h2]
    | ok l i =>
      have h1 : decodedEntry cfg raw = some (l, i) := by simp [decodedEntry, hd]
      have h2 : ∀ n, lineDiagnostic cfg raw n = none := by simp [lineDiagnostic, hd]
      have hs : storeLines cfg M (raw :: rest) = storeLines cfg (programInsert M l i) rest := by
        simp [storeLines, h1]
      have hl : decodedLabels cfg (raw :: rest) = l :: decodedLabels cfg rest := by
        simp [decodedLabels, h1]
      rw [hl] at h
      have hno : ((lookupLabel M.entries l).isSome && cfg.duplicatePolicy == .reject) = false := by
        cases hp : cfg.duplicatePolicy with
        | lastWins => simp
        | reject => simp [(h hp).2 l (by simp)]
      simp only [hno, Bool.false_eq_true, if_false, hs]
      rw [ih (programInsert_wf hM l i).2]
      · simp [lineDiagnosticsFrom, h2]
      · intro hp
        obtain ⟨h3, h4⟩ := h hp
        obtain ⟨h5, h6⟩ := List.nodup_cons.1 h3
        refine ⟨h6, fun k hk => ?_⟩
        have hne : l ≠ k := by rintro rfl; exact h5 hk
        simp only [programInsert, lookupLabel_insertLabel hM, if_neg hne]
        exact h4 k (by simp [hk])

/-- A line that defines a stored label ends the load under `REJECT` (R76). -/
theorem loadLines_duplicate {raw : Text} {l : Nat} {i : Instr} {M : Program} (after : List Text)
    (n : Nat) (D : List Diagnostic) (hp : cfg.duplicatePolicy = .reject)
    (hd : decodeLine cfg raw = .ok l i) (hl : (lookupLabel M.entries l).isSome = true) :
    loadLines cfg n (raw :: after) M D = .duplicateLabel
      (D ++ [{ kind := .duplicateLabel, lineNumber := n, label := some l, text := raw }]) := by
  rw [loadLines, hd]
  simp [hp, hl]

/-- What a load answers, said once: every line stored, or a second definition under `REJECT`. -/
theorem loadLines_cases (lines : List Text) {n : Nat} {M : Program} {D : List Diagnostic}
    (hM : M.Canonical) :
    ((cfg.duplicatePolicy = .reject → (decodedLabels cfg lines).Nodup ∧
        ∀ l ∈ decodedLabels cfg lines, lookupLabel M.entries l = none) ∧
      loadLines cfg n lines M D =
        if (storeLines cfg M lines).entries.isEmpty then
          .emptyProgram (D ++ lineDiagnosticsFrom cfg n lines)
        else .loaded (storeLines cfg M lines) (D ++ lineDiagnosticsFrom cfg n lines)) ∨
    (cfg.duplicatePolicy = .reject ∧ ¬ ((decodedLabels cfg lines).Nodup ∧
        ∀ l ∈ decodedLabels cfg lines, lookupLabel M.entries l = none) ∧
      ∃ D', loadLines cfg n lines M D = .duplicateLabel D') := by
  by_cases h : cfg.duplicatePolicy = .reject → (decodedLabels cfg lines).Nodup ∧
      ∀ l ∈ decodedLabels cfg lines, lookupLabel M.entries l = none
  · refine .inl ⟨h, ?_⟩
    have := loadLines_append (D := D) (n := n) [] hM h
    rw [List.append_nil] at this
    rw [this, loadLines]
  · rw [Classical.not_imp] at h
    obtain ⟨hp, h⟩ := h
    refine .inr ⟨hp, h, ?_⟩
    induction lines generalizing n M D with
    | nil => simp at h
    | cons raw rest ih =>
      rw [loadLines]
      cases hd : decodeLine cfg raw with
      | skip =>
        have hl : decodedLabels cfg (raw :: rest) = decodedLabels cfg rest := by
          simp [decodedLabels, decodedEntry, hd]
        rw [hl] at h
        exact ih hM h
      | err k lab =>
        have hl : decodedLabels cfg (raw :: rest) = decodedLabels cfg rest := by
          simp [decodedLabels, decodedEntry, hd]
        rw [hl] at h
        exact ih hM h
      | ok l i =>
        have hl : decodedLabels cfg (raw :: rest) = l :: decodedLabels cfg rest := by
          simp [decodedLabels, decodedEntry, hd]
        rw [hl] at h
        cases hs : (lookupLabel M.entries l).isSome with
        | true => simp [hp, hs]
        | false =>
          simp only [hs, Bool.false_and, Bool.false_eq_true, if_false]
          refine ih (programInsert_wf hM l i).2 fun hall => h ?_
          have hnone : ∀ k ∈ decodedLabels cfg rest, k ≠ l ∧ lookupLabel M.entries k = none := by
            intro k hk
            have := hall.2 k hk
            simp only [programInsert, lookupLabel_insertLabel hM] at this
            split at this
            · cases this
            · next hne => exact ⟨Ne.symm hne, this⟩
          refine ⟨List.nodup_cons.2 ⟨fun hk => (hnone l hk).1 rfl, hall.1⟩, ?_⟩
          intro k hk
          rcases List.mem_cons.1 hk with rfl | hk
          · simpa using hs
          · exact (hnone k hk).2

/-- The load port on ASCII lines is the loop over them. -/
theorem load_ascii {lines : List Text} (h : ∀ line ∈ lines, ∀ c ∈ line, isAscii c = true) :
    load cfg (some lines) = loadLines cfg 1 lines { entries := [] } [] := by
  have hall : lines.all (fun line => line.all isAscii) = true := by simpa using h
  simp only [load]
  rw [if_pos hall]

/-- The load port on other lines refuses them (R60). -/
theorem load_not_ascii {lines : List Text} (h : ¬ ∀ line ∈ lines, ∀ c ∈ line, isAscii c = true) :
    load cfg (some lines) = .nonAsciiSource := by
  have hall : ¬ lines.all (fun line => line.all isAscii) = true := by simpa using h
  simp only [load]
  rw [if_neg hall]

theorem emptyMemory_canonical : Program.Canonical { entries := [] } := List.Pairwise.nil

/-- Everything a load that succeeds says of its lines. -/
theorem load_eq_loaded {lines : List Text} {P : Program} {D : List Diagnostic}
    (h : load cfg (some lines) = .loaded P D) :
    P = storeLines cfg { entries := [] } lines ∧ P.WF ∧ D = lineDiagnostics cfg lines ∧
      (cfg.duplicatePolicy = .reject → (decodedLabels cfg lines).Nodup) := by
  by_cases ha : ∀ line ∈ lines, ∀ c ∈ line, isAscii c = true
  · rw [load_ascii ha] at h
    rcases loadLines_cases (cfg := cfg) (n := 1) (D := []) lines emptyMemory_canonical with
      ⟨h1, h2⟩ | ⟨-, -, D', h2⟩
    · rw [h2] at h
      split at h
      · cases h
      · next hne =>
        cases h
        exact ⟨rfl, ⟨by simpa using hne, storeLines_canonical emptyMemory_canonical lines⟩,
          List.nil_append _, fun hp => (h1 hp).1⟩
    · rw [h2] at h; cases h
  · rw [load_not_ascii ha] at h; cases h

end Loading

end Sys2Proof.Machine
end

