-- ==== Sys2Proof/Laws/State.lean ====
section
/-! SUPPORT. One lemma per field of State per update, and read after write of the register file. -/

namespace Sys2Proof.Machine

section RegisterFile

@[simp] theorem RegFile.read_write_same (x : RegFile) (r : Reg) (v : Nat) : (x.write r v).read r = v := by
  cases r <;> rfl

@[simp] theorem RegFile.read_write_other (x : RegFile) {r q : Reg} (v : Nat) (h : q ≠ r) :
    (x.write r v).read q = x.read q := by
  cases r <;> cases q <;> first | rfl | exact absurd rfl h

@[simp] theorem RegFile.read_zero (r : Reg) : RegFile.zero.read r = 0 := by cases r <;> rfl

@[simp] theorem RegFile.write_read (x : RegFile) (r : Reg) : x.write r (x.read r) = x := by
  cases r <;> rfl

/-- A register file is its eight values. -/
theorem RegFile.eq_of_read {x y : RegFile} (h : ∀ r, x.read r = y.read r) : x = y := by
  obtain ⟨a, b, c, d, e, f, g, k⟩ := x
  obtain ⟨a', b', c', d', e', f', g', k'⟩ := y
  have hA := h .A; have hB := h .B; have hC := h .C; have hD := h .D
  have hE := h .E; have hF := h .F; have hG := h .G; have hH := h .H
  simp_all [RegFile.read]

end RegisterFile

section WriteReg

variable (s : State) (r : Reg) (v : Nat)

@[simp] theorem State.writeReg_cfg : (s.writeReg r v).cfg = s.cfg := rfl
@[simp] theorem State.writeReg_x : (s.writeReg r v).x = s.x.write r v := rfl
@[simp] theorem State.writeReg_pc : (s.writeReg r v).pc = s.pc := rfl
@[simp] theorem State.writeReg_prog : (s.writeReg r v).prog = s.prog := rfl
@[simp] theorem State.writeReg_runState : (s.writeReg r v).runState = s.runState := rfl
@[simp] theorem State.writeReg_abortReq : (s.writeReg r v).abortReq = s.abortReq := rfl
@[simp] theorem State.writeReg_trace : (s.writeReg r v).trace = s.trace := rfl
@[simp] theorem State.writeReg_diagnostics : (s.writeReg r v).diagnostics = s.diagnostics := rfl

theorem State.readReg_def : s.readReg r = s.x.read r := rfl

@[simp] theorem State.readReg_writeReg_same : (s.writeReg r v).readReg r = v :=
  RegFile.read_write_same s.x r v

@[simp] theorem State.readReg_writeReg_other {q : Reg} (h : q ≠ r) :
    (s.writeReg r v).readReg q = s.readReg q := RegFile.read_write_other s.x v h

end WriteReg

section SetPc

variable (s : State) (t : Int)

@[simp] theorem State.setPc_cfg : (s.setPc t).cfg = s.cfg := rfl
@[simp] theorem State.setPc_x : (s.setPc t).x = s.x := rfl
@[simp] theorem State.setPc_pc : (s.setPc t).pc = some t := rfl
@[simp] theorem State.setPc_prog : (s.setPc t).prog = s.prog := rfl
@[simp] theorem State.setPc_runState : (s.setPc t).runState = s.runState := rfl
@[simp] theorem State.setPc_abortReq : (s.setPc t).abortReq = s.abortReq := rfl
@[simp] theorem State.setPc_trace : (s.setPc t).trace = s.trace := rfl
@[simp] theorem State.setPc_diagnostics : (s.setPc t).diagnostics = s.diagnostics := rfl
@[simp] theorem State.setPc_readReg (r : Reg) : (s.setPc t).readReg r = s.readReg r := rfl

end SetPc

section Emit

variable (s : State) (snap : Snapshot)

@[simp] theorem State.emit_cfg : (s.emit snap).cfg = s.cfg := rfl
@[simp] theorem State.emit_x : (s.emit snap).x = s.x := rfl
@[simp] theorem State.emit_pc : (s.emit snap).pc = s.pc := rfl
@[simp] theorem State.emit_prog : (s.emit snap).prog = s.prog := rfl
@[simp] theorem State.emit_runState : (s.emit snap).runState = s.runState := rfl
@[simp] theorem State.emit_abortReq : (s.emit snap).abortReq = s.abortReq := rfl
@[simp] theorem State.emit_trace : (s.emit snap).trace = s.trace ++ [snap] := rfl
@[simp] theorem State.emit_diagnostics : (s.emit snap).diagnostics = s.diagnostics := rfl
@[simp] theorem State.emit_readReg (r : Reg) : (s.emit snap).readReg r = s.readReg r := rfl

end Emit

section EmitStep

variable (s : State) (t : Int) (i : Instr)

@[simp] theorem State.emitStep_cfg : (s.emitStep t i).cfg = s.cfg := rfl
@[simp] theorem State.emitStep_x : (s.emitStep t i).x = s.x := rfl
@[simp] theorem State.emitStep_pc : (s.emitStep t i).pc = s.pc := rfl
@[simp] theorem State.emitStep_prog : (s.emitStep t i).prog = s.prog := rfl
@[simp] theorem State.emitStep_runState : (s.emitStep t i).runState = s.runState := rfl
@[simp] theorem State.emitStep_abortReq : (s.emitStep t i).abortReq = s.abortReq := rfl
@[simp] theorem State.emitStep_trace :
    (s.emitStep t i).trace = s.trace ++ [stepSnapshot s.cfg s.x t i] := rfl
@[simp] theorem State.emitStep_diagnostics : (s.emitStep t i).diagnostics = s.diagnostics := rfl
@[simp] theorem State.emitStep_readReg (r : Reg) : (s.emitStep t i).readReg r = s.readReg r := rfl

end EmitStep

section Halt

variable (s : State) (t : Int)

@[simp] theorem State.halt_cfg : (s.halt t).cfg = s.cfg := rfl
@[simp] theorem State.halt_x : (s.halt t).x = s.x := rfl
@[simp] theorem State.halt_pc : (s.halt t).pc = s.pc := rfl
@[simp] theorem State.halt_prog : (s.halt t).prog = s.prog := rfl
@[simp] theorem State.halt_runState : (s.halt t).runState = .halted := rfl
@[simp] theorem State.halt_abortReq : (s.halt t).abortReq = s.abortReq := rfl
@[simp] theorem State.halt_trace : (s.halt t).trace = s.trace ++ [haltedSnapshot s.x t] := rfl
@[simp] theorem State.halt_diagnostics : (s.halt t).diagnostics = s.diagnostics := rfl
@[simp] theorem State.halt_readReg (r : Reg) : (s.halt t).readReg r = s.readReg r := rfl

end Halt

section AbortCheck

variable (s : State)

@[simp] theorem State.abortCheck_cfg : s.abortCheck.cfg = s.cfg := by unfold abortCheck; split <;> rfl
@[simp] theorem State.abortCheck_x : s.abortCheck.x = s.x := by unfold abortCheck; split <;> rfl
@[simp] theorem State.abortCheck_pc : s.abortCheck.pc = s.pc := by unfold abortCheck; split <;> rfl
@[simp] theorem State.abortCheck_prog : s.abortCheck.prog = s.prog := by unfold abortCheck; split <;> rfl
@[simp] theorem State.abortCheck_abortReq : s.abortCheck.abortReq = s.abortReq := by
  unfold abortCheck; split <;> rfl
@[simp] theorem State.abortCheck_trace : s.abortCheck.trace = s.trace := by unfold abortCheck; split <;> rfl
@[simp] theorem State.abortCheck_diagnostics : s.abortCheck.diagnostics = s.diagnostics := by
  unfold abortCheck; split <;> rfl
@[simp] theorem State.abortCheck_readReg (r : Reg) : s.abortCheck.readReg r = s.readReg r := by
  unfold abortCheck; split <;> rfl

/-- What the abort check does to the run state (R98). -/
theorem State.abortCheck_runState : s.abortCheck.runState =
    if s.cfg.abortSupported = true ∧ s.abortReq = true ∧ s.runState = .running then .aborted
    else s.runState := by
  unfold abortCheck
  by_cases h : s.cfg.abortSupported = true ∧ s.abortReq = true ∧ s.runState = .running
  · obtain ⟨h1, h2, h3⟩ := h
    simp [h1, h2, h3]
  · rw [if_neg h, if_neg (by simpa [and_assoc] using h)]

end AbortCheck

section Begin

variable (s : State) (P : Program) (start : Nat) (x : RegFile) (ws : List InitWarning)

@[simp] theorem State.begin_cfg : (s.begin P start x ws).cfg = s.cfg := rfl
@[simp] theorem State.begin_x : (s.begin P start x ws).x = x := rfl
@[simp] theorem State.begin_pc : (s.begin P start x ws).pc = some (start : Int) := rfl
@[simp] theorem State.begin_prog : (s.begin P start x ws).prog = some P := rfl
@[simp] theorem State.begin_runState : (s.begin P start x ws).runState = .running := rfl
@[simp] theorem State.begin_abortReq : (s.begin P start x ws).abortReq = false := rfl
@[simp] theorem State.begin_trace :
    (s.begin P start x ws).trace = s.trace ++ [entrySnapshot x start] := rfl
@[simp] theorem State.begin_diagnostics :
    (s.begin P start x ws).diagnostics = s.diagnostics ++ ws := rfl
@[simp] theorem State.begin_readReg (r : Reg) : (s.begin P start x ws).readReg r = x.read r := rfl

end Begin

end Sys2Proof.Machine
end

