-- ==== Sys2Proof/Laws/Ops.lean ====
section
/-! SUPPORT. What each shared operation, each instruction and one step can do, said once. -/

namespace Sys2Proof.Machine

/-- An increment that has a result adds one, and was not at the bound. -/
theorem increment_eq_some {b : RegBound} {v u : Nat} (h : increment b v = some u) :
    u = v + 1 ∧ ∀ w, b = .bits w → v ≠ 2 ^ w - 1 := by
  cases b with
  | unbounded => simp only [increment, Option.some.injEq] at h; exact ⟨h.symm, by simp⟩
  | bits w =>
    simp only [increment] at h
    split at h
    · simp at h
    · next hv => exact ⟨(Option.some.inj h).symm, by rintro w' ⟨⟩; exact hv⟩

/-- An increment without a result is at the bound of `BITS(w)`. -/
theorem increment_eq_none {b : RegBound} {v : Nat} (h : increment b v = none) :
    ∃ w, b = .bits w ∧ v = 2 ^ w - 1 := by
  cases b with
  | unbounded => simp [increment] at h
  | bits w =>
    simp only [increment] at h
    split at h
    · next hv => exact ⟨w, rfl, hv⟩
    · simp at h

/-- The incremented value is in the domain. -/
theorem holds_of_increment {b : RegBound} {v u : Nat} (hv : b.holds v = true)
    (h : increment b v = some u) : b.holds u = true := by
  obtain ⟨rfl, hne⟩ := increment_eq_some h
  cases b with
  | unbounded => simp [RegBound.holds]; omega
  | bits w =>
    have hne := hne w rfl
    simp only [RegBound.holds, Bool.and_eq_true, decide_eq_true_eq] at hv ⊢
    have hv2 : (v : Int) < ((2 ^ w : Nat) : Int) := by push_cast; exact hv.2
    have : ((v + 1 : Nat) : Int) < ((2 ^ w : Nat) : Int) := by omega
    push_cast at this
    exact ⟨by omega, by push_cast; exact this⟩

theorem holds_zero (b : RegBound) : b.holds 0 = true := by
  cases b with
  | unbounded => rfl
  | bits w => simp [RegBound.holds]

theorem decrement_le (v : Nat) : decrement v ≤ v := by unfold decrement; split <;> omega

theorem decrement_eq_sub (v : Nat) : decrement v = v - 1 := by unfold decrement; split <;> omega

/-- A smaller value is in the domain too. -/
theorem holds_of_le {b : RegBound} {v u : Nat} (hv : b.holds v = true) (h : u ≤ v) :
    b.holds u = true := by
  cases b with
  | unbounded => simp [RegBound.holds]
  | bits w =>
    simp only [RegBound.holds, Bool.and_eq_true, decide_eq_true_eq] at hv ⊢
    exact ⟨by omega, by omega⟩

theorem isZero_iff (v : Nat) : isZero v = true ↔ v = 0 := by simp [isZero]

/-- Raising an overflow ends the run and changes nothing else, or finds no `pc`. -/
theorem raiseOverflow_cases {s : State} {r : Reg} {t : State} (h : s.raiseOverflow r = .next t) :
    ∃ l, s.pc = some l ∧ t = { s with runState := .faulted l r } := by
  unfold State.raiseOverflow at h
  split at h
  · next l hl => exact ⟨l, hl, by cases h; rfl⟩
  · cases h

/-- No instruction reads or changes the abort request (R98). -/
theorem exec_raised {i : Instr} {u v : State} (h : exec i u = .next v) :
    exec i { u with abortReq := true } = .next { v with abortReq := true } := by
  obtain ⟨cfg, x, pc, prog, rs, ab, tr, ds⟩ := u
  cases i with
  | add r t =>
    simp only [exec, execAdd, State.raiseOverflow, State.readReg] at h ⊢
    cases hv : increment cfg.regBound (x.read r) with
    | some n => rw [hv] at h; cases h; rfl
    | none =>
      rw [hv] at h
      cases pc with
      | some l => cases h; rfl
      | none => cases h
  | sub r t => cases h; rfl
  | zer r t0 t1 => cases h; rfl

/-- What an instruction that answers a next state has done. -/
theorem exec_cases {i : Instr} {s t : State} (h : exec i s = .next t) :
    (∃ r u v, i = .add r u ∧ increment s.cfg.regBound (s.readReg r) = some v ∧
      t = (s.writeReg r v).setPc u) ∨
    (∃ r u l, i = .add r u ∧ increment s.cfg.regBound (s.readReg r) = none ∧ s.pc = some l ∧
      t = { s with runState := .faulted l r }) ∨
    (∃ r u, i = .sub r u ∧ t = (s.writeReg r (decrement (s.readReg r))).setPc u) ∨
    (∃ r u0 u1, i = .zer r u0 u1 ∧ t = s.setPc (if isZero (s.readReg r) then u0 else u1)) := by
  cases i with
  | add r u =>
    simp only [exec, execAdd] at h
    split at h
    · next v hv => cases h; exact .inl ⟨r, u, v, rfl, hv, rfl⟩
    · next hv =>
      obtain ⟨l, hl, rfl⟩ := raiseOverflow_cases h
      exact .inr (.inl ⟨r, u, l, rfl, hv, hl, rfl⟩)
  | sub r u => cases h; exact .inr (.inr (.inl ⟨r, u, rfl, rfl⟩))
  | zer r u0 u1 => cases h; exact .inr (.inr (.inr ⟨r, u0, u1, rfl, rfl⟩))

/-- No instruction is refused, and the only fault is an overflow that finds no `pc`. -/
theorem exec_total (i : Instr) (s : State) :
    (∃ t, exec i s = .next t) ∨ (exec i s = .fault .pcUnset ∧ s.pc = none) := by
  cases i with
  | add r u =>
    simp only [exec, execAdd]
    split
    · exact .inl ⟨_, rfl⟩
    · unfold State.raiseOverflow
      split
      · exact .inl ⟨_, rfl⟩
      · next h => exact .inr ⟨rfl, h⟩
  | sub r u => exact .inl ⟨_, rfl⟩
  | zer r u0 u1 => exact .inl ⟨_, rfl⟩

/-- What no instruction changes. -/
theorem exec_keeps {i : Instr} {s t : State} (h : exec i s = .next t) :
    t.cfg = s.cfg ∧ t.prog = s.prog ∧ t.abortReq = s.abortReq ∧ t.trace = s.trace ∧
      t.diagnostics = s.diagnostics := by
  rcases exec_cases h with ⟨r, u, v, rfl, -, rfl⟩ | ⟨r, u, l, rfl, -, -, rfl⟩ | ⟨r, u, rfl, rfl⟩ |
    ⟨r, u0, u1, rfl, rfl⟩ <;> exact ⟨rfl, rfl, rfl, rfl, rfl⟩

/-- Registers that the instruction does not name keep their values (R28). -/
theorem exec_keeps_reg {i : Instr} {s t : State} (h : exec i s = .next t) {q : Reg}
    (hq : q ≠ i.register) : t.readReg q = s.readReg q := by
  rcases exec_cases h with ⟨r, u, v, rfl, -, rfl⟩ | ⟨r, u, l, rfl, -, -, rfl⟩ | ⟨r, u, rfl, rfl⟩ |
    ⟨r, u0, u1, rfl, rfl⟩ <;> simp_all [Instr.register, State.readReg]

/-- A step that answers a next state ran an instruction or halted. -/
theorem step_cases {s s' : State} (h : step s = .next s') :
    s.runState = .running ∧ ∃ P t, s.prog = some P ∧ s.pc = some t ∧
      ((∃ i u, fetch P t = some i ∧ exec i (s.emitStep t i) = .next u ∧ s' = u.abortCheck) ∨
       (fetch P t = none ∧ s' = s.halt t)) := by
  simp only [step, sequencerStep] at h
  split at h
  · next hr =>
    refine ⟨hr, ?_⟩
    split at h
    · cases h
    · next P hP =>
      split at h
      · cases h
      · next t ht =>
        refine ⟨P, t, hP, ht, ?_⟩
        split at h
        · next i hi =>
          cases hx : exec i (s.emitStep t i) with
          | next u => rw [hx] at h; cases h; exact .inl ⟨i, u, hi, hx, rfl⟩
          | fault f => rw [hx] at h; cases h
          | refused f => rw [hx] at h; cases h
        · next hi => cases h; exact .inr ⟨hi, rfl⟩
  all_goals cases h

end Sys2Proof.Machine
end

