-- ==== Sys2Proof/Laws/PerInstr.lean ====
section
/-! SUPPORT. Laws about every instruction as syntax, one lemma per constructor of `Instr`. -/

namespace Sys2Proof.Laws

/-- The arity invariant of the source's record holds of every instruction by construction (R37, R75). -/
def ArityHolds.Statement (i : Instr) : Prop := ∀ l : Nat, (i.record l).wf = true

theorem ArityHolds.add (r : Reg) (t : Int) : ArityHolds.Statement (.add r t) := by
  intro l
  simp [Instr.record, SourceRecord.wf, Instr.targets, Instr.operation, Operation.arity]

theorem ArityHolds.sub (r : Reg) (t : Int) : ArityHolds.Statement (.sub r t) := by
  intro l
  simp [Instr.record, SourceRecord.wf, Instr.targets, Instr.operation, Operation.arity]

theorem ArityHolds.zer (r : Reg) (t0 t1 : Int) : ArityHolds.Statement (.zer r t0 t1) := by
  intro l
  simp [Instr.record, SourceRecord.wf, Instr.targets, Instr.operation, Operation.arity]

end Sys2Proof.Laws
end

