-- ==== Sys2Proof/Laws/Sequencer.lean ====
section
/-! SUPPORT. What the initial-register port and the start of a run can do, said once. -/

namespace Sys2Proof.Machine

/-- An entry leaves the registers as they are, writes 0, or writes a value of the domain. -/
theorem applyEntry_cases {cfg : Config} {x x' : RegFile} {e : InitEntry} {ws : List InitWarning}
    (h : applyEntry cfg x e = some (x', ws)) :
    (keyRegister e.key = none ∧ x' = x ∧ ws = [.unknownInitialRegister e.key]) ∨
    (∃ r, keyRegister e.key = some r ∧ x' = x.write r 0 ∧
      ((initInteger e.value = none ∧ ws = [.invalidInitialValue r e.value]) ∨
       ∃ v, initInteger e.value = some v ∧ cfg.regBound.holds v = false ∧
        cfg.negInitPolicy = .zeroWithWarning ∧ ws = [.invalidInitialValue r (.int v)])) ∨
    (∃ r v, keyRegister e.key = some r ∧ initInteger e.value = some v ∧
      cfg.regBound.holds v = true ∧ x' = x.write r v.toNat ∧ ws = []) := by
  unfold applyEntry at h
  split at h
  · next hk => cases h; exact .inl ⟨hk, rfl, rfl⟩
  · next r hk =>
    split at h
    · next hv => cases h; exact .inr (.inl ⟨r, hk, rfl, .inl ⟨hv, rfl⟩⟩)
    · next v hv =>
      split at h
      · next hb => cases h; exact .inr (.inr ⟨r, v, hk, hv, hb, rfl, rfl⟩)
      · next hb =>
        split at h
        · next hp =>
          cases h
          exact .inr (.inl ⟨r, hk, rfl, .inr ⟨v, hv, by simpa using hb, hp, rfl⟩⟩)
        · cases h

/-- An entry is refused only for an integer that a register cannot hold, under `REFUSE` (R92). -/
theorem applyEntry_eq_none {cfg : Config} {x : RegFile} {e : InitEntry}
    (h : applyEntry cfg x e = none) :
    cfg.negInitPolicy = .refuse ∧ ∃ r v, keyRegister e.key = some r ∧
      initInteger e.value = some v ∧ cfg.regBound.holds v = false := by
  unfold applyEntry at h
  split at h
  · cases h
  · next r hk =>
    split at h
    · cases h
    · next v hv =>
      split at h
      · cases h
      · next hb =>
        split at h
        · cases h
        · next hp => exact ⟨hp, r, v, hk, hv, by simpa using hb⟩

/-- A value of the domain, as a natural number. -/
theorem holds_toNat {b : RegBound} {v : Int} (h : b.holds v = true) : b.holds v.toNat = true := by
  have h0 : 0 ≤ v := by
    cases b with
    | unbounded => simpa [RegBound.holds] using h
    | bits w =>
      simp only [RegBound.holds, Bool.and_eq_true, decide_eq_true_eq] at h
      exact h.1
  rwa [Int.toNat_of_nonneg h0]

/-- The entries leave registers of the domain where they find such registers. -/
theorem applyEntries_fit {cfg : Config} {entries : List InitEntry} {x x' : RegFile}
    {ws : List InitWarning} (hx : ∀ r, cfg.regBound.holds (x.read r) = true)
    (h : applyEntries cfg x entries = some (x', ws)) (r : Reg) :
    cfg.regBound.holds (x'.read r) = true := by
  induction entries generalizing x ws with
  | nil => simp only [applyEntries] at h; cases h; exact hx r
  | cons e rest ih =>
    simp only [applyEntries] at h
    split at h
    · cases h
    · next y ws1 hy =>
      split at h
      · cases h
      · next z ws2 hz =>
        cases h
        refine ih (fun q => ?_) hz
        rcases applyEntry_cases hy with ⟨-, rfl, -⟩ | ⟨r', -, rfl, -⟩ | ⟨r', v, -, -, hv, rfl, -⟩
        · exact hx q
        · by_cases hq : q = r'
          · subst hq; simpa using holds_zero _
          · simpa [hq] using hx q
        · by_cases hq : q = r'
          · subst hq; simpa using holds_toNat hv
          · simpa [hq] using hx q

/-- What a run port that starts a run has found and done (R91 to R94). -/
theorem startRun_cases {s s' : State} {program : Option Program} {entries : List InitEntry}
    (h : startRun s program entries = .next s') :
    ∃ P start x ws, s.runState = .idle ∧ program = some P ∧ P.WF ∧ startLabel P = some start ∧
      applyEntries s.cfg RegFile.zero entries = some (x, ws) ∧ s' = s.begin P start x ws := by
  unfold startRun at h
  split at h
  · next hr =>
    split at h
    · cases h
    · next P =>
      split at h
      · cases h
      · next start hstart =>
        split at h
        · next hwf =>
          split at h
          · cases h
          · next x ws hx => cases h; exact ⟨P, start, x, ws, hr, rfl, hwf, hstart, hx, rfl⟩
        · cases h
  all_goals cases h

/-- A run of one step more is a step and the rest of the run. -/
theorem run_succ {k : Nat} {s s' : State} (h : Host.Core.run Sys2Proof.core (k + 1) s = .next s') :
    ∃ u, step s = .next u ∧ Host.Core.run Sys2Proof.core k u = .next s' := by
  have hcore : Sys2Proof.core.step s = step s := rfl
  simp only [Host.Core.run, hcore] at h
  split at h
  · next u hu => exact ⟨u, hu, h⟩
  · cases h
  · cases h

theorem run_zero {s s' : State} (h : Host.Core.run Sys2Proof.core 0 s = .next s') : s' = s := by
  cases h; rfl

section RunPort

variable {s s' : State} {request : Bool} {requests : List Bool}

/-- A turn without a request is a step. -/
@[simp] theorem runTurn_false (s : State) : runTurn false s = step s := rfl

/-- A turn with a request is a step of the machine with its request raised. -/
theorem runTurn_true (h : s.cfg.abortSupported = true) :
    runTurn true s = step { s with abortReq := true } := by
  simp only [runTurn, raiseAbort, h, if_true]; rfl

/-- A request is refused where the block has no abort input (log 10). -/
theorem runTurn_true_refused (h : s.cfg.abortSupported = false) :
    runTurn true s = .refused .abortNotSupported := by
  simp [runTurn, raiseAbort, h]

/-- The loop does nothing to a machine whose run is not going on. -/
theorem runLoop_not_running (h : s.runState ≠ .running) (requests : List Bool) :
    runLoop requests s = .next s := by
  cases requests with
  | nil => rfl
  | cons request requests => rw [runLoop, if_neg h]

/-- The loop goes on from the state a turn leaves. -/
theorem runLoop_of_turn (hr : s.runState = .running) (h : runTurn request s = .next s') :
    runLoop (request :: requests) s = runLoop requests s' := by
  rw [runLoop, if_pos hr, h]

/-- Turns without a request are steps, whatever the host does after them. -/
theorem runLoop_run {k : Nat} {s u : State} (later : List Bool)
    (h : Host.Core.run Sys2Proof.core k s = .next u) :
    runLoop (List.replicate k false ++ later) s = runLoop later u := by
  induction k generalizing s with
  | zero => cases run_zero h; rfl
  | succ k ih =>
    obtain ⟨v, h1, h2⟩ := run_succ h
    rw [List.replicate_succ, List.cons_append,
      runLoop_of_turn (step_cases h1).1 (by rw [runTurn_false, h1]), ih h2]

end RunPort

end Sys2Proof.Machine
end

