-- ==== Sys2Proof/Tests/Slice0.lean ====
section
/-! SUPPORT. The model's own tests. Every expected value comes from spec/95_test_vectors.md (the vector is
named) or from the rule named; the witness theorems show that the statements' hypotheses can be met. -/

namespace Sys2Proof.Tests

open Machine

section WellFormedSmoke

/-- R11: each kind of character that may not start a comment is refused; the default is admitted. -/
theorem test_commentChar_refused :
    [':', ' ', '\t', 'a', 'Z', '5', '+', '-'].all
      (fun c => !Config.wf { Config.default with commentChar := c }) = true ∧
    Config.default.wf = true := by decide

/-- R8: `BITS(0)` is refused, `BITS(1)` admitted. -/
theorem test_regBound_refused :
    Config.wf { Config.default with regBound := .bits 0 } = false ∧
    Config.wf { Config.default with regBound := .bits 1 } = true := by decide

/-- R37: a record with a negative label, and records with too few or too many targets, are refused. -/
theorem test_record_refused :
    SourceRecord.wf { label := -1, operation := .increment, register := .A, targets := [2] } = false ∧
    SourceRecord.wf { label := 1, operation := .testZero, register := .A, targets := [2] } = false ∧
    SourceRecord.wf { label := 1, operation := .decrement, register := .A, targets := [2, 3] } = false ∧
    SourceRecord.wf { label := 0, operation := .decrement, register := .A, targets := [-2] } = true := by
  decide

/-- R45: an empty memory, falling labels and a label listed twice are refused. -/
theorem test_program_refused :
    ¬ Program.WF { entries := [] } ∧
    ¬ Program.WF { entries := [(2, .add .A 1), (1, .add .A 1)] } ∧
    ¬ Program.WF { entries := [(1, .add .A 1), (1, .sub .A 1)] } ∧
    Program.WF { entries := [(1, .add .A 1), (5, .sub .A 1)] } := by decide

end WellFormedSmoke

section DecodeWords

/-- DEC-3, `1: ADD A 2`: the bytes `31 3a 20 41 44 44 20 41 20 32`, the first lowest. -/
theorem test_decode_add : decodeTableWord 80 0x32204120444441203a31 = some (.add .A 2) := by decide

/-- DEC-7, `+3: sub g 0`. -/
theorem test_decode_sub : decodeTableWord 88 0x30206720627573203a332b = some (.sub .G 0) := by decide

/-- E1, `0: ZER A 1 1`, and DEC-5, `  007 :  Zer   h  -3   +4  # c`. -/
theorem test_decode_zer :
    decodeTableWord 96 0x31203120412052455a203a30 = some (.zer .A 1 1) ∧
    decodeTableWord 240 0x6320232020342b202020332d20206820202072655a20203a203730302020 =
      some (.zer .H (-3) 4) := by decide

/-- R60: the byte 0xE9 after a comment character is refused. -/
theorem test_decode_nonAscii : decodeTableWord 96 0xe92332204120444441203a31 = none := by decide

end DecodeWords

section DecodeLines

/-- Decoding under the default parameters. -/
def decodeText (s : String) : LineResult := decodeLine Config.default s.toList

/-- DEC-1, DEC-2, DEC-4, DEC-6, DEC-8, DEC-9. -/
theorem test_decode_lines :
    decodeText "   " = .skip ∧ decodeText "# x" = .skip ∧
    decodeText "1:add a 2" = .ok 1 (.add .A 2) ∧ decodeText "-0: SUB B 1" = .ok 0 (.sub .B 1) ∧
    decodeText "1: ADD A 2#comment" = .ok 1 (.add .A 2) ∧
    decodeText "1: ADD A 99999999999999999999" = .ok 1 (.add .A 99999999999999999999) := by decide

/-- DEC-10 to DEC-14. -/
theorem test_decode_label_failures :
    decodeText "1 ADD A 2" = .err (.malformedLine .noSeparator) none ∧
    decodeText "1 # : ADD A 2" = .err (.malformedLine .noSeparator) none ∧
    decodeText "a: ADD A 2" = .err (.malformedLine .badLabel) none ∧
    decodeText ": ADD A 2" = .err (.malformedLine .badLabel) none ∧
    decodeText "-2: ADD A 2" = .err (.malformedLine .negativeLabel) none ∧
    decodeText "3: FOO A 1" = .err .unknownOperation (some 3) := by decide

/-- DEC-15 to DEC-18. -/
theorem test_decode_field_failures :
    decodeText "1: FOO Z 1 2 3" = .err .unknownOperation (some 1) ∧
    decodeText "1:" = .err (.malformedLine .missingField) (some 1) ∧
    decodeText "1: ADD" = .err (.malformedLine .missingField) (some 1) ∧
    decodeText "1: ADD Z 1" = .err .unknownRegister (some 1) ∧
    decodeText "1: ADD AB 2" = .err .unknownRegister (some 1) ∧
    decodeText "1: ADD A: 2" = .err .unknownRegister (some 1) := by decide

/-- DEC-19 to DEC-21. -/
theorem test_decode_target_failures :
    decodeText "1: ADD A" = .err .arityMismatch (some 1) ∧
    decodeText "1: ADD A 2 3" = .err .arityMismatch (some 1) ∧
    decodeText "1: ZER A x" = .err .arityMismatch (some 1) ∧
    decodeText "1: ADD A x" = .err (.malformedLine .badTarget) (some 1) ∧
    decodeText "1: ADD A 1_0" = .err (.malformedLine .badTarget) (some 1) ∧
    decodeText "1: ADD A 2:3" = .err (.malformedLine .badTarget) (some 1) := by decide

/-- RT-2: the canonical text of two records (R88). -/
theorem test_encode_lines :
    encodeLine 3 (.sub .G 0) = "3: SUB G 0".toList ∧
    encodeLine 7 (.zer .H (-3) 4) = "7: ZER H -3 4".toList := by decide

end DecodeLines

section Loads

/-- Loading lines with a duplicate policy, the other parameters at their defaults. -/
def loadStrings (policy : DuplicatePolicy) (lines : List String) : LoadResult :=
  load { Config.default with duplicatePolicy := policy } (some (lines.map String.toList))

/-- LOAD-1, LOAD-3, LOAD-4, LOAD-10. -/
theorem test_loads :
    loadStrings .lastWins [] = .emptyProgram [] ∧
    loadStrings .lastWins ["1: FOO A 2"] = .emptyProgram [⟨.unknownOperation, 1, some 1, "1: FOO A 2".toList⟩] ∧
    loadStrings .lastWins ["1: ADD A 2", "1: SUB B 3"] = .loaded ⟨[(1, .sub .B 3)]⟩ [] ∧
    load Config.default none = .missingSource := by decide

/-- LOAD-5 and LOAD-6. -/
theorem test_load_reject :
    loadStrings .reject ["1: ADD A 2", "1: SUB B 3"] =
      .duplicateLabel [⟨.duplicateLabel, 2, some 1, "1: SUB B 3".toList⟩] ∧
    loadStrings .reject ["1: ADD A 2", "1: FOO B 3"] =
      .loaded ⟨[(1, .add .A 2)]⟩ [⟨.unknownOperation, 2, some 1, "1: FOO B 3".toList⟩] := by decide

/-- LOAD-9 and P3: the start label is the least label; LOAD-11: the CR before a LF is trimmed. -/
theorem test_load_start :
    (loadedProgram (loadStrings .lastWins ["6: SUB D 7", "5: SUB D 6"])).bind startLabel = some 5 ∧
    loadText Config.default (some "1: ADD A 2\r\n".toList) = .loaded ⟨[(1, .add .A 2)]⟩ [] := by decide

end Loads

section Instructions

/-- A running machine at `t` in `P`. -/
def machineAt (cfg : Config) (x : RegFile) (P : Program) (t : Int) : State :=
  { State.construct cfg with x := x, prog := some P, pc := some t, runState := .running }

/-- The default parameters with registers of `w` bits. -/
def bitsConfig (w : Nat) : Config := { Config.default with regBound := .bits w }

/-- The default parameters with the abort input. -/
def abortConfig : Config := { Config.default with abortSupported := true }

/-- The registers and `pc` of a next state. -/
def after : Host.Outcome State Fault Refusal → Option (RegFile × Option Int)
  | .next s => some (s.x, s.pc)
  | .fault _ => none
  | .refused _ => none

/-- The next state of an outcome that has one. -/
def nextOf : Host.Outcome State Fault Refusal → Option State
  | .next s => some s
  | .fault _ => none
  | .refused _ => none

/-- ADD-1, `3: ADD C 1` from C = 4, and ADD-4, `1: ADD B -5`. -/
theorem test_add :
    after (exec (.add .C 1) (machineAt Config.default { RegFile.zero with c := 4 } ⟨[(3, .add .C 1)]⟩ 3)) =
      some ({ RegFile.zero with c := 5 }, some 1) ∧
    after (exec (.add .B (-5)) (machineAt Config.default RegFile.zero ⟨[(1, .add .B (-5))]⟩ 1)) =
      some ({ RegFile.zero with b := 1 }, some (-5)) := by decide

/-- ADD-6 and ADD-7: under BITS(3), 6 goes to 7, and 7 overflows with nothing written. -/
theorem test_add_bits :
    after (exec (.add .A 2) (machineAt (bitsConfig 3) { RegFile.zero with a := 6 } ⟨[(1, .add .A 2)]⟩ 1)) =
      some ({ RegFile.zero with a := 7 }, some 2) ∧
    (nextOf (exec (.add .A 2) (machineAt (bitsConfig 3) { RegFile.zero with a := 7 } ⟨[(1, .add .A 2)]⟩ 1))).map
      (fun s => (s.x, s.pc, s.runState, s.result)) =
      some ({ RegFile.zero with a := 7 }, some 1, .faulted 1 .A,
        some (.faulted { RegFile.zero with a := 7 } 1 .A)) := by decide

/-- SUB-1, `2: SUB A 3` from A = 0, and SUB-7, `5: SUB B 9` from B = 10^20. -/
theorem test_sub :
    after (exec (.sub .A 3) (machineAt Config.default RegFile.zero ⟨[(2, .sub .A 3)]⟩ 2)) =
      some (RegFile.zero, some 3) ∧
    after (exec (.sub .B 9) (machineAt Config.default
        { RegFile.zero with a := 4, b := 100000000000000000000 } ⟨[(5, .sub .B 9)]⟩ 5)) =
      some ({ RegFile.zero with a := 4, b := 99999999999999999999 }, some 9) := by decide

/-- ZER-1, ZER-2 and ZER-4. -/
theorem test_zer :
    after (exec (.zer .A 4 2) (machineAt Config.default RegFile.zero ⟨[(1, .zer .A 4 2)]⟩ 1)) =
      some (RegFile.zero, some 4) ∧
    after (exec (.zer .A 4 2) (machineAt Config.default { RegFile.zero with a := 2 } ⟨[(1, .zer .A 4 2)]⟩ 1)) =
      some ({ RegFile.zero with a := 2 }, some 2) ∧
    after (exec (.zer .F 4 2) (machineAt Config.default { RegFile.zero with f := 100000000000000000000 }
        ⟨[(1, .zer .F 4 2)]⟩ 1)) =
      some ({ RegFile.zero with f := 100000000000000000000 }, some 2) := by decide

end Instructions

section Sequencer

/-- SEQ-1: the trace and the result of P0, run through the run port. -/
theorem test_run_p0 :
    (nextOf (runPort (List.replicate 5 false) State.reset (some ⟨[(0, .zer .A 1 1)]⟩) [])).map
      (fun s => (s.runState, s.pc, s.trace, s.result)) =
    some (.halted, some 1,
      [⟨.entry, RegFile.zero, 0, none⟩, ⟨.step, RegFile.zero, 0, some "0: ZER A 1 1".toList⟩,
        ⟨.halted, RegFile.zero, 1, none⟩],
      some (.halted RegFile.zero)) := by decide

/-- SEQ-3 and SEQ-5: an abort that the host raises during the first step of a run ends it after that step,
before the halt test. -/
theorem test_abort : ∀ p ∈ [((0 : Int), (0 : Int)), (5, 5)],
    (nextOf (runPort [true, false] (State.construct abortConfig) (some ⟨[(0, .add .A p.1)]⟩) [])).map
      (fun s => (s.result, s.x, s.pc, s.trace.map Snapshot.tag)) =
    some (some (.aborted { RegFile.zero with a := 1 }), { RegFile.zero with a := 1 }, some p.2,
      [.entry, .step]) := by decide

/-- INIT-3, INIT-5, INIT-6, INIT-4 and INIT-7: the registers and the warnings at the entry snapshot. -/
theorem test_initial_registers :
    (applyEntries Config.default RegFile.zero
      [⟨" C ".toList, .text " 8 ".toList⟩, ⟨['A'], .text ['5']⟩, ⟨['a'], .text ['7']⟩]) =
      some ({ RegFile.zero with a := 7, c := 8 }, []) ∧
    (applyEntries Config.default RegFile.zero
      [⟨['X'], .text ['1']⟩, ⟨['A'], .text "abc".toList⟩, ⟨['B'], .text "-4".toList⟩]) =
      some (RegFile.zero, [.unknownInitialRegister ['X'], .invalidInitialValue .A (.text "abc".toList),
        .invalidInitialValue .B (.int (-4))]) := by decide

/-- INIT-8, INIT-9 and INIT-10. -/
theorem test_initial_bounds :
    applyEntries { Config.default with negInitPolicy := .refuse } RegFile.zero
      [⟨['A'], .text "-4".toList⟩] = none ∧
    applyEntries (bitsConfig 3) RegFile.zero [⟨['A'], .text ['8']⟩] =
      some (RegFile.zero, [.invalidInitialValue .A (.int 8)]) ∧
    applyEntries (bitsConfig 3) RegFile.zero [⟨['A'], .text ['7']⟩] =
      some ({ RegFile.zero with a := 7 }, []) := by decide

/-- The table word of `1: ADD A 2` runs as the first step after reset. -/
theorem test_fetch_word :
    (nextOf (step (State.reset.withFetchWord 80 0x32204120444441203a31))).map
      (fun s => (s.x, s.pc, s.runState)) = some ({ RegFile.zero with a := 1 }, some 2, .running) := by
  decide

end Sequencer

section Witnesses

/-! One theorem for each statement with hypotheses: concrete values that meet them together, for each
clause at a boundary where the statement has several. -/

/-- One whitespace character and one digit are the least texts the hypotheses ask for. -/
theorem witness_IntegerLiteralSyntaxAndValue : (['0'] : Text) ≠ [] ∧
    ∀ c ∈ (['0'] : Text), c ∈ ['0', '1', '2', '3', '4', '5', '6', '7', '8', '9'] := by simp

theorem witness_TokensAreThePiecesBetweenWhitespace :
    (∀ c ∈ ([' ', '\r'] : Text), isWhitespace c = true) ∧ (['A'] : Text) ≠ [] ∧
    (∀ d ∈ (['A'] : Text), isWhitespace d = false) ∧ isWhitespace '\t' = true := by
  simp [isWhitespace]

theorem witness_CommentsAndBlankLinesAreIgnored : Config.default.wf = true ∧
    Config.default.commentChar ∉ ("1: ADD A 2".toList : Text) ∧
    decodeLine Config.default [' '] = .skip := by decide

theorem witness_SurroundingWhitespaceIsIgnored : Config.default.wf = true ∧
    (∀ c ∈ ([' '] : Text), isWhitespace c = true) ∧ ∀ c ∈ (['\r'] : Text), isWhitespace c = true := by
  simp [isWhitespace]
  decide

theorem witness_LetterCaseIsIgnored : Config.default.wf = true ∧
    ('`' ∉ "abcdefghijklmnopqrstuvwxyz".toList ∧ 'A' ∉ "abcdefghijklmnopqrstuvwxyz".toList) := by decide

/-- The text before the separator, after it, and the tokens of the text after it. -/
def parts (s : String) : Option (Text × Text × List Text) :=
  (splitFirst ':' (cleanLine Config.default s.toList)).map (fun p => (trim p.1, p.2, tokens p.2))

/-- A blank line, one line for each of the nine failures, and one that decodes: the hypotheses of its clause hold. -/
theorem witness_FirstFailureInOrderIsReported :
    cleanLine Config.default [' ', '#'] = [] ∧
    (cleanLine Config.default "1 ADD".toList ≠ [] ∧ ':' ∉ cleanLine Config.default "1 ADD".toList) ∧
    (cleanLine Config.default "a:".toList = "a".toList ++ ':' :: [] ∧ ':' ∉ "a".toList ∧
      isIntLiteral (trim "a".toList) = false) ∧
    (cleanLine Config.default "-1:".toList = "-1".toList ++ ':' :: [] ∧
      isIntLiteral (trim "-1".toList) = true ∧ intValue (trim "-1".toList) < 0) ∧
    (cleanLine Config.default "0:".toList = "0".toList ++ ':' :: [] ∧
      isIntLiteral (trim "0".toList) = true ∧ intValue (trim "0".toList) = 0 ∧ tokens [] = []) ∧
    (parts "0: FOO" = some ("0".toList, " FOO".toList, ["FOO".toList]) ∧
      opOfMnemonic (upper "FOO".toList) = none) ∧
    (parts "0: add" = some ("0".toList, " add".toList, ["add".toList]) ∧
      opOfMnemonic (upper "add".toList) = some .increment) ∧
    (parts "0: add I" = some ("0".toList, " add I".toList, ["add".toList, ['I']]) ∧
      regOfName (upper ['I']) = none) ∧
    (parts "0: add h" = some ("0".toList, " add h".toList, ["add".toList, ['h']]) ∧
      regOfName (upper ['h']) = some .H ∧ ([] : List Text).length ≠ Operation.increment.arity) ∧
    (parts "0: add h x" = some ("0".toList, " add h x".toList, ["add".toList, ['h'], ['x']]) ∧
      ([['x']] : List Text).length = Operation.increment.arity ∧ isIntLiteral ['x'] = false) ∧
    (parts "0: add h -1" = some ("0".toList, " add h -1".toList, ["add".toList, ['h'], ['-', '1']]) ∧
      isIntLiteral ['-', '1'] = true) := by
  refine ⟨?_, ?_, ?_, ?_, ?_, ?_, ?_, ?_, ?_, ?_, ?_⟩ <;> decide

theorem witness_EncodedLinesDecodeBack :
    Config.default.wf = true ∧ Config.wf { Config.default with commentChar := ';' } = true := by decide

theorem witness_SerializedProgramsLoadBack : Config.default.wf = true ∧
    Program.WF { entries := [(0, .add .A 1), (7, .zer .H (-3) 4)] } := by decide

theorem witness_StreamsAreCutAtLineFeeds :
    '\n' ∉ (['a', '\r'] : Text) ∧ (['a', '\r'] : Text) ≠ [] := by decide

theorem witness_NoDecodedLineIsEmptyProgram :
    ∀ line ∈ ([['#']] : List Text), ∀ c ∈ line, isAscii c = true := by simp [isAscii]

/-- ASCII lines of which one decodes, under each policy with a label defined twice or not, and a load that
succeeds of each; and one that ends in `DuplicateLabel`. -/
theorem witness_LastDefinitionOfALabelWins :
    (∀ policy ∈ [DuplicatePolicy.lastWins, .reject],
      (["1: ADD A 2", "3: FOO A 1"].all (fun line => line.toList.all isAscii) = true ∧
        decodeText "1: ADD A 2" = .ok 1 (.add .A 2) ∧
        (decodedLabels { Config.default with duplicatePolicy := policy }
          ["1: ADD A 2".toList, "3: FOO A 1".toList]).Nodup)) ∧
    loadStrings .reject ["1: ADD A 2", "1: SUB A 2"] =
      .duplicateLabel [⟨.duplicateLabel, 2, some 1, "1: SUB A 2".toList⟩] ∧
    loadStrings .lastWins ["1: ADD A 2", "1: FOO", "1: SUB A 2"] =
      .loaded ⟨[(1, .sub .A 2)]⟩ [⟨.unknownOperation, 2, some 1, "1: FOO".toList⟩] ∧
    loadStrings .reject ["1: ADD A 2", "0: SUB A 2"] =
      .loaded ⟨[(0, .sub .A 2), (1, .add .A 2)]⟩ [] := by decide

theorem witness_SecondDefinitionIsRejected :
    ∃ (cfg : Config) (before after : List Text) (raw : Text) (l : Nat) (i : Instr),
      cfg.duplicatePolicy = .reject ∧
      (before ++ raw :: after).all (fun line => line.all isAscii) = true ∧
      (decodedLabels cfg before).Nodup ∧ l ∈ decodedLabels cfg before ∧ decodeLine cfg raw = .ok l i :=
  ⟨{ Config.default with duplicatePolicy := .reject }, ["1: ADD A 2".toList], [], "1: SUB A 2".toList, 1,
    .sub .A 2, by decide⟩

theorem witness_FailedLinesChangeNoEntry : "3: FOO A 1".toList.all isAscii = true ∧
    decodeLine Config.default "3: FOO A 1".toList = .err .unknownOperation (some 3) := by decide

theorem witness_DiagnosticsAreTheFailingLinesInOrder :
    loadStrings .lastWins ["3: FOO A 1", "1: SUB A 2"] =
      .loaded ⟨[(1, .sub .A 2)]⟩ [⟨.unknownOperation, 1, some 3, "3: FOO A 1".toList⟩] := by decide

theorem witness_LoadedProgramsAreWellFormed :
    loadStrings .lastWins ["1: SUB A 2"] = .loaded ⟨[(1, .sub .A 2)]⟩ [] ∧
    Program.Canonical { entries := [] } := by decide

theorem witness_StartLabelIsTheLeastKey : ([(5, .add .A 1), (0, .add .A 1)] : List (Nat × Instr)) ≠ [] := by
  decide

theorem witness_NegativeValuesAreNeverDefined : (-1 : Int) < 0 := by decide

/-- Not bounded; bounded and one below the bound; and at the bound, with a `pc`. -/
theorem witness_AddIncrementsAndJumps :
    (∀ w, Config.default.regBound = .bits w → (0 : Nat) ≠ 2 ^ w - 1) ∧
    (∀ w, (bitsConfig 3).regBound = .bits w → (6 : Nat) ≠ 2 ^ w - 1) ∧
    ∃ s : State, s.cfg.regBound = .bits 3 ∧ s.readReg .H = 2 ^ 3 - 1 ∧ s.pc = some 1 := by
  refine ⟨by simp [Config.default], ?_,
    machineAt (bitsConfig 3) { RegFile.zero with h := 7 } ⟨[]⟩ 1, rfl, rfl, rfl⟩
  intro w h
  simp only [bitsConfig, RegBound.bits.injEq] at h
  subst h
  decide

theorem witness_SubDecrementsAndJumps : Config.default.wf = true := by decide

theorem witness_ZerTestsAndBranches : Config.default.wf = true ∧
    State.reset.readReg .A = 0 ∧
    (machineAt Config.default { RegFile.zero with a := 1 } ⟨[]⟩ 0).readReg .A ≠ 0 := by decide

theorem witness_RegistersAreIndependentCells : Reg.A ≠ Reg.H := by decide

/-- The program of P0 and a machine that is about to run its one instruction. -/
def oneZer : Program := { entries := [(0, .zer .A 1 1)] }

/-- The state after one step of `s`, or `s` where there is none. -/
def stepped (s : State) : State := (nextOf (step s)).getD s

/-- A machine at the one instruction of P0. -/
def atZer : State := machineAt Config.default RegFile.zero oneZer 0

/-- A machine at an ADD that counts up on itself. -/
def atAdd (cfg : Config) (a : Nat) : State :=
  machineAt cfg { RegFile.zero with a := a } { entries := [(0, .add .A 0)] } 0

theorem witness_StepRunsTheFetchedInstruction : atZer.runState = .running ∧ atZer.prog = some oneZer ∧
    atZer.pc = some 0 ∧ fetch oneZer 0 = some (.zer .A 1 1) := by decide

theorem witness_StepRunsTheLoadedLine : (lineOfWord 80 0x32204120444441203a31).all isAscii = true ∧
    decodeLine State.reset.cfg (lineOfWord 80 0x32204120444441203a31) = .ok 1 (.add .A 2) := by
  decide

/-- A step that runs on, one that halts, and one that faults. -/
theorem witness_ProgramCounterComesFromTargets :
    step atZer = .next (stepped atZer) ∧ (stepped atZer).runState = .running ∧
    step (stepped atZer) = .next (stepped (stepped atZer)) ∧
    (stepped (stepped atZer)).runState = .halted ∧
    step (atAdd (bitsConfig 2) 3) = .next (stepped (atAdd (bitsConfig 2) 3)) ∧
    (stepped (atAdd (bitsConfig 2) 3)).runState = .faulted 0 .A := ⟨rfl, rfl, rfl, rfl, rfl, rfl⟩

theorem witness_StepWritesOnlyTheNamedRegister :
    step (atAdd Config.default 0) = .next (stepped (atAdd Config.default 0)) ∧
    (stepped (atAdd Config.default 0)).readReg .A ≠ (atAdd Config.default 0).readReg .A :=
  ⟨rfl, by decide⟩

theorem witness_StepEmitsOneSnapshot : step atZer = .next (stepped atZer) ∧
    step (stepped atZer) = .next (stepped (stepped atZer)) := ⟨rfl, rfl⟩

theorem witness_UndefinedPcHalts : ∀ t ∈ ([1, -1] : List Int),
    (machineAt Config.default RegFile.zero oneZer t).runState = .running ∧
    (machineAt Config.default RegFile.zero oneZer t).prog = some oneZer ∧
    (machineAt Config.default RegFile.zero oneZer t).pc = some t ∧ isDefined oneZer t = false := by decide

theorem witness_OnlyAnUndefinedPcHalts :
    step (stepped atZer) = .next (stepped (stepped atZer)) ∧
    (stepped (stepped atZer)).runState = .halted := ⟨rfl, rfl⟩

/-- A machine at an ADD, with its abort request raised. -/
def abortedAdd : State := { atAdd abortConfig 0 with abortReq := true }

theorem witness_AbortEndsTheRunAfterTheInstruction : ∃ u : State, abortedAdd.runState = .running ∧
    abortedAdd.prog = some ⟨[(0, .add .A 0)]⟩ ∧ abortedAdd.pc = some 0 ∧
    fetch ⟨[(0, .add .A 0)]⟩ 0 = some (.add .A 0) ∧ abortedAdd.cfg.abortSupported = true ∧
    abortedAdd.abortReq = true ∧ exec (.add .A 0) (abortedAdd.emitStep 0 (.add .A 0)) = .next u ∧
    u.runState = .running :=
  ⟨((abortedAdd.emitStep 0 (.add .A 0)).writeReg .A 1).setPc 0, rfl, rfl, rfl, rfl, rfl, rfl, rfl, rfl⟩

theorem witness_OnlyAnAbortRequestAborts : step abortedAdd = .next (stepped abortedAdd) ∧
    (stepped abortedAdd).runState = .aborted ∧ abortedAdd.cfg.abortSupported = true ∧
    State.reset.cfg.abortSupported = false := ⟨rfl, rfl, rfl, rfl⟩

/-- With the abort request raised too. -/
theorem witness_OverflowEndsTheRunFaulted :
    ∃ s : State, s.runState = .running ∧ s.prog = some ⟨[(0, .add .A 0)]⟩ ∧ s.pc = some 0 ∧
      fetch ⟨[(0, .add .A 0)]⟩ 0 = some (.add .A 0) ∧ s.cfg.regBound = .bits 2 ∧
      s.readReg .A = 2 ^ 2 - 1 ∧ s.abortReq = true :=
  ⟨{ atAdd { bitsConfig 2 with abortSupported := true } 3 with abortReq := true }, by decide⟩

theorem witness_OnlyAnOverflowFaults :
    step (atAdd (bitsConfig 2) 3) = .next (stepped (atAdd (bitsConfig 2) 3)) ∧
    (stepped (atAdd (bitsConfig 2) 3)).runState = .faulted 0 .A := ⟨rfl, rfl⟩

theorem witness_EndedRunsTakeNoStep :
    (stepped (atAdd (bitsConfig 2) 3)).runState = .faulted 0 .A ∧
    (stepped (stepped atZer)).runState = .halted ∧ (stepped abortedAdd).runState = .aborted ∧
    (stepped (stepped atZer)).ended = true := by decide

/-- A text that is an integer literal once trimmed and one that is none; and a value that no register can
hold, under both policies. -/
theorem witness_InitialRegistersFollowTheEntries :
    isIntLiteral (trim " 8 ".toList) = true ∧ isIntLiteral (trim "1_0".toList) = false ∧
    ∃ e : InitEntry, oneZer.WF ∧
    (State.construct { Config.default with negInitPolicy := .refuse }).runState = .idle ∧
    entryNames .A e = true ∧ entryUnrepresentable Config.default e = true ∧
    (Config.default.negInitPolicy = .refuse → entryUnrepresentable Config.default e = false) :=
  ⟨by decide, by decide, ⟨['a'], .int (-1)⟩, by decide⟩

/-- Any entries under `ZERO_WITH_WARNING`; an unknown key, a text that is no integer and the
greatest value of a register under `REFUSE`, with the warnings INIT-4 and INIT-5 give. -/
theorem witness_InitialRegisterWarnings : ∃ (s : State) (entries : List InitEntry),
    State.reset.runState = .idle ∧ State.reset.cfg.negInitPolicy = .zeroWithWarning ∧
    s.runState = .idle ∧ oneZer.WF ∧ s.cfg.negInitPolicy = .refuse ∧
    (∀ e ∈ entries, (∃ r, entryNames r e = true) → entryUnrepresentable s.cfg e = false) ∧
    entries.flatMap (entryWarnings s.cfg) =
      [.unknownInitialRegister ['X'], .invalidInitialValue .A (.text "abc".toList)] := by
  refine ⟨State.construct { bitsConfig 3 with negInitPolicy := .refuse },
    [⟨['X'], .text ['9']⟩, ⟨['A'], .text "abc".toList⟩, ⟨['B'], .text ['7']⟩],
    rfl, rfl, rfl, by decide, rfl, ?_, by decide⟩
  simp only [List.mem_cons, List.not_mem_nil, or_false]
  rintro e (rfl | rfl | rfl) ⟨r, hr⟩
  · cases r <;> cases hr
  · decide
  · decide

/-- A machine in which P0 has just been started. -/
def startedZer : State := State.reset.begin oneZer 0 RegFile.zero []

theorem witness_StartOfRunSetsTheMachine : startRun State.reset (some oneZer) [] = .next startedZer := rfl

theorem witness_RunsNeedALoadedProgram : State.reset.runState = .idle ∧
    ¬ Program.WF { entries := [] } ∧ startedZer.runState ≠ .idle ∧ Config.default.wf = true := by decide

theorem witness_PortsKeepTheInvariant : State.reset.Inv ∧
    startRun State.reset (some oneZer) [] = .next startedZer ∧ (State.construct abortConfig).Inv ∧
    raiseAbort (State.construct abortConfig) =
      .next { State.construct abortConfig with abortReq := true } :=
  ⟨⟨fun r => by cases r <;> rfl, rfl, rfl, rfl, rfl, rfl⟩, rfl,
    ⟨fun r => by cases r <;> rfl, rfl, rfl, rfl, rfl, rfl⟩, rfl⟩

/-- A state that satisfies the invariant and takes a step. -/
theorem witness_StepsKeepTheInvariant : startedZer.Inv ∧
    step startedZer = .next (stepped startedZer) :=
  ⟨⟨fun r => by cases r <;> rfl, oneZer, 0, rfl, by decide, rfl, 0, RegFile.zero, [], rfl, rfl, by simp⟩, rfl⟩

theorem witness_RunningMachinesAlwaysStep : startedZer.Inv ∧ startedZer.runState = .running ∧
    startedZer.cfg.regBound = .unbounded := ⟨witness_StepsKeepTheInvariant.1, rfl, rfl⟩

/-- States that no run reaches, in which an `UNSET` program counter or a missing program would be read. -/
theorem witness_UnsetStateIsNeverRead : State.reset.runState = .idle ∧ startedZer.Inv ∧
    (∃ s : State, s.runState = .running ∧ s.prog = some oneZer ∧ s.pc = none) ∧
    (∃ s : State, s.cfg.regBound = .bits 1 ∧ s.readReg .A = 2 ^ 1 - 1 ∧ s.pc = none) ∧
    ∃ s : State, s.runState = .running ∧ s.prog = none :=
  ⟨rfl, witness_StepsKeepTheInvariant.1, ⟨{ startedZer with pc := none }, rfl, rfl, rfl⟩,
    ⟨{ atAdd (bitsConfig 1) 1 with pc := none }, rfl, rfl, rfl⟩, { startedZer with prog := none }, rfl, rfl⟩

theorem witness_ConstructionLeavesTheResetValues : State.reset = State.construct Config.default := rfl

theorem witness_UnboundedRunsAreTotal : State.reset.cfg.regBound = .unbounded ∧
    startRun State.reset (some oneZer) [] = .next startedZer := ⟨rfl, rfl⟩

theorem witness_UnnamedRegistersKeepTheirValues : startedZer.prog = some oneZer ∧
    (∀ e ∈ oneZer.entries, e.2.register ≠ .B) ∧
    Host.Core.run Sys2Proof.core 1 startedZer = .next (stepped startedZer) :=
  ⟨rfl, by decide, rfl⟩

theorem witness_RunsNeverChangeTheProgram :
    Host.Core.run Sys2Proof.core 2 startedZer = .next (stepped (stepped startedZer)) := rfl

theorem witness_HaltedRunsHaveTheirTrace :
    startRun (State.construct Config.default) (some oneZer) [] = .next startedZer ∧
    Host.Core.run Sys2Proof.core 2 startedZer = .next (stepped (stepped startedZer)) ∧
    (stepped (stepped startedZer)).runState = .halted := ⟨rfl, rfl, rfl⟩

theorem witness_TraceAndDescriptionAreNeverRead : ∃ s1 s2 : State, s1 ≠ s2 ∧
    s1.unobserved = s2.unobserved :=
  ⟨startedZer, { startedZer with trace := [], cfg := { startedZer.cfg with describe := .implementation } },
    by decide⟩

theorem witness_RunPortReturnsTheEndedRun :
    startRun State.reset (some oneZer) [] = .next startedZer ∧
    Host.Core.run Sys2Proof.core 2 startedZer = .next (stepped (stepped startedZer)) ∧
    (stepped (stepped startedZer)).ended = true ∧ 2 ≤ 2 := ⟨rfl, rfl, rfl, Nat.le_refl 2⟩

/-- A machine state with the abort input whose run of P0 has just started, and one whose register is at its
bound before the ADD that counts it up. -/
def startedAbort (cfg : Config) (P : Program) (x : RegFile) : State :=
  (State.construct { cfg with abortSupported := true }).begin P 0 x []

/-- A request in the first turn, in the turn that halts, and in the turn of an overflow. -/
theorem witness_RunPortEndsAtTheHostsRequest :
    (∃ s1 v : State, startRun (State.construct abortConfig) (some oneZer) [] = .next s1 ∧
      Host.Core.run Sys2Proof.core 0 s1 = .next s1 ∧ s1.runState = .running ∧ s1.prog = some oneZer ∧
      s1.pc = some 0 ∧ fetch oneZer 0 = some (.zer .A 1 1) ∧
      exec (.zer .A 1 1) (s1.emitStep 0 (.zer .A 1 1)) = .next v ∧ v.runState = .running) ∧
    (∃ s1 u : State, startRun (State.construct abortConfig) (some oneZer) [] = .next s1 ∧
      Host.Core.run Sys2Proof.core 1 s1 = .next u ∧ u.runState = .running ∧ u.pc = some 1 ∧
      isDefined oneZer 1 = false) ∧
    (∃ s1 v : State, startRun (State.construct { bitsConfig 2 with abortSupported := true })
        (some ⟨[(0, .add .A 0)]⟩) [⟨['A'], .int 3⟩] = .next s1 ∧ s1.runState = .running ∧
      exec (.add .A 0) (s1.emitStep 0 (.add .A 0)) = .next v ∧ v.runState = .faulted 0 .A) ∧
    State.reset.cfg.abortSupported = false :=
  ⟨⟨startedAbort Config.default oneZer RegFile.zero, _, rfl, rfl, rfl, rfl, rfl, rfl, rfl, rfl⟩,
    ⟨startedAbort Config.default oneZer RegFile.zero, _, rfl, rfl, rfl, rfl, rfl⟩,
    ⟨startedAbort (bitsConfig 2) ⟨[(0, .add .A 0)]⟩ { RegFile.zero with a := 3 }, _, rfl, rfl, rfl, rfl⟩, rfl⟩

end Witnesses

end Sys2Proof.Tests
end

section
/-! PROOFS. The register file and the instruction memory as the scope describes them (R18, R19, R25, R53),
the abort request (R14, R39, R98), the letter case of program text (R21), and what no rule reads (R16, R41,
R42). -/

namespace Sys2Proof.Machine

section RegisterCells

/-- Read after write (R18). -/
theorem RegFile.read_write (x : RegFile) (r q : Reg) (v : Nat) :
    (x.write r v).read q = if q = r then v else x.read q := by
  by_cases h : q = r
  · subst h; simp
  · simp [h]

/-- Writes to two registers commute. -/
theorem RegFile.write_comm (x : RegFile) {r q : Reg} (v u : Nat) (h : r ≠ q) :
    (x.write r v).write q u = (x.write q u).write r v := by
  refine RegFile.eq_of_read fun p => ?_
  simp only [RegFile.read_write]
  by_cases hq : p = q
  · subst hq; simp [h.symm]
  · simp [hq]

/-- A second write to a register hides the first. -/
@[simp] theorem RegFile.write_write_same (x : RegFile) (r : Reg) (v u : Nat) :
    (x.write r v).write r u = x.write r u := by
  refine RegFile.eq_of_read fun p => ?_
  simp only [RegFile.read_write]
  split <;> rfl

/-- `Reg.all` leaves no register out (R25). -/
theorem Reg.mem_all (r : Reg) : r ∈ Reg.all := by cases r <;> decide

/-- Settles O28: two register files with the same eight reads are one, so each law of writes is read off
the law of read after write. -/
theorem registersAreIndependentCells : Obligations.RegistersAreIndependentCells := by
  intro x r q v u
  exact ⟨x.read_write r q v, x.write_comm v u, x.write_write_same r v u, Reg.mem_all r, rfl⟩

end RegisterCells

section NegativeValues

/-- A negative value is no key of any program (R19, R53). -/
theorem fetch_of_neg (P : Program) {t : Int} (h : t < 0) : fetch P t = none := by
  obtain ⟨n, rfl⟩ := Int.eq_negSucc_of_lt_zero h
  exact fetch_negSucc P n

/-- Settles O24: keys are natural numbers (`fetch_of_neg`). -/
theorem negativeValuesAreNeverDefined : Obligations.NegativeValuesAreNeverDefined := by
  intro P t h
  exact ⟨by rw [isDefined, fetch_of_neg P h]; rfl, fetch_of_neg P h⟩

end NegativeValues

section AbortRequest

/-- No instruction aborts a run: it keeps the run state or ends the run `FAULTED`. -/
theorem exec_runState {i : Instr} {s u : State} (h : exec i s = .next u) :
    u.runState = s.runState ∨ ∃ l r, u.runState = .faulted l r := by
  rcases exec_cases h with ⟨r, t, v, -, -, rfl⟩ | ⟨r, t, l, -, -, -, rfl⟩ | ⟨r, t, -, rfl⟩ |
    ⟨r, t0, t1, -, rfl⟩
  · exact .inl rfl
  · exact .inr ⟨l, r, rfl⟩
  · exact .inl rfl
  · exact .inl rfl

/-- The abort check aborts a run only where the input exists and is raised (R98). -/
theorem State.requested_of_abortCheck {s : State} (h : s.abortCheck.runState = .aborted)
    (hs : s.runState ≠ .aborted) : s.cfg.abortSupported = true ∧ s.abortReq = true := by
  rw [State.abortCheck_runState] at h
  split at h
  · next hc =>
    obtain ⟨hsup, hreq, -⟩ := hc
    exact ⟨hsup, hreq⟩
  · exact absurd h hs

/-- A step aborts a run only where the input exists and is raised: the abort check is the only place
that can (R98). -/
theorem requested_of_step_aborted {s s' : State} (h : step s = .next s')
    (ha : s'.runState = .aborted) : s.cfg.abortSupported = true ∧ s.abortReq = true := by
  obtain ⟨hr, P, t, -, -, ⟨i, u, -, hx, rfl⟩ | ⟨-, rfl⟩⟩ := step_cases h
  · obtain ⟨hcfg, -, hreq, -, -⟩ := exec_keeps hx
    have hu : u.runState ≠ .aborted := by
      rcases exec_runState hx with hu | ⟨l, r, hu⟩ <;> simp [hu, hr]
    simpa [hcfg, hreq] using State.requested_of_abortCheck ha hu
  · simp at ha

/-- Settles O37: by what a step can do (`requested_of_step_aborted`), and by the two answers of `raiseAbort`. -/
theorem onlyAnAbortRequestAborts : Obligations.OnlyAnAbortRequestAborts := by
  refine ⟨fun s s' => requested_of_step_aborted, fun s h => ?_, fun s h => ?_⟩
  · simp [raiseAbort, h]
  · simp [raiseAbort, h]

end AbortRequest

section Unobserved

variable (s : State)

@[simp] theorem State.unobserved_unobserved : s.unobserved.unobserved = s.unobserved := rfl
@[simp] theorem State.unobserved_regBound : s.unobserved.cfg.regBound = s.cfg.regBound := rfl
@[simp] theorem State.unobserved_abortSupported :
    s.unobserved.cfg.abortSupported = s.cfg.abortSupported := rfl
@[simp] theorem State.unobserved_pc : s.unobserved.pc = s.pc := rfl
@[simp] theorem State.unobserved_prog : s.unobserved.prog = s.prog := rfl
@[simp] theorem State.unobserved_runState : s.unobserved.runState = s.runState := rfl
@[simp] theorem State.unobserved_abortReq : s.unobserved.abortReq = s.abortReq := rfl
@[simp] theorem State.unobserved_readReg (r : Reg) : s.unobserved.readReg r = s.readReg r := rfl

/-- An emitted snapshot is not observed (R41, R42). -/
@[simp] theorem State.emitStep_unobserved (t : Int) (i : Instr) :
    (s.emitStep t i).unobserved = s.unobserved := rfl

/-- What a halt leaves does not depend on the trace before it. -/
theorem State.halt_unobserved (t : Int) : (s.halt t).unobserved = (s.unobserved.halt t).unobserved := rfl

theorem State.abortCheck_unobserved : s.abortCheck.unobserved = s.unobserved.abortCheck := by
  simp only [State.abortCheck, State.unobserved_abortSupported, State.unobserved_abortReq,
    State.unobserved_runState]
  exact apply_ite State.unobserved _ _ _

theorem raiseOverflow_unobserved (r : Reg) :
    unobservedOutcome (s.raiseOverflow r) = s.unobserved.raiseOverflow r := by
  simp only [State.raiseOverflow, State.unobserved_pc]
  split <;> rfl

/-- No instruction reads the trace, the warnings or the choice of description text. -/
theorem exec_unobserved (i : Instr) : unobservedOutcome (exec i s) = exec i s.unobserved := by
  cases i with
  | add r t =>
    simp only [exec, execAdd, State.unobserved_regBound, State.unobserved_readReg]
    split
    · rfl
    · exact raiseOverflow_unobserved s r
  | sub r t => rfl
  | zer r t0 t1 => rfl

theorem afterInstr_unobserved (o : Host.Outcome State Fault Refusal) :
    unobservedOutcome (afterInstr o) = afterInstr (unobservedOutcome o) := by
  cases o with
  | next u => exact congrArg Host.Outcome.next u.abortCheck_unobserved
  | fault f => rfl
  | refused f => rfl

/-- The instruction that a step runs, after its snapshot, does what it does on the unobserved state. -/
theorem afterInstr_emitStep_unobserved (t : Int) (i : Instr) :
    unobservedOutcome (afterInstr (exec i (s.emitStep t i))) = afterInstr (exec i s.unobserved) := by
  rw [afterInstr_unobserved, exec_unobserved, State.emitStep_unobserved]

/-- A step shows the same outcome from a state and from that state without what is only observed. -/
theorem step_unobserved : unobservedOutcome (step s) = unobservedOutcome (step s.unobserved) := by
  simp only [step, sequencerStep, State.unobserved_runState, State.unobserved_prog,
    State.unobserved_pc]
  split
  case h_1 =>
    split
    · rfl
    · split
      · rfl
      · split
        · rw [afterInstr_emitStep_unobserved, afterInstr_emitStep_unobserved,
            State.unobserved_unobserved]
        · exact congrArg Host.Outcome.next (s.halt_unobserved _)
  all_goals rfl

/-- Settles O55: both steps show what the step of the one unobserved state shows. -/
theorem traceAndDescriptionAreNeverRead : Obligations.TraceAndDescriptionAreNeverRead := by
  intro s1 s2 h
  calc unobservedOutcome (step s1)
      = unobservedOutcome (step s1.unobserved) := step_unobserved s1
    _ = unobservedOutcome (step s2.unobserved) := by rw [h]
    _ = unobservedOutcome (step s2) := (step_unobserved s2).symm

end Unobserved

section LetterCase

theorem mem_lowerAlphabet_of_isLower {c : Char} (h : isLower c = true) :
    c ∈ "abcdefghijklmnopqrstuvwxyz".toList := by
  have key : ∀ n < 0x7B, 0x61 ≤ n → Char.ofNat n ∈ "abcdefghijklmnopqrstuvwxyz".toList := by decide
  simp only [isLower, Bool.and_eq_true, decide_eq_true_eq] at h
  obtain ⟨hlo, hhi⟩ := h
  simpa using key c.toNat (by omega) hlo

theorem upper_lowerAlphabet : "abcdefghijklmnopqrstuvwxyz".toList.map (fun c => upper [c]) =
    "ABCDEFGHIJKLMNOPQRSTUVWXYZ".toList.map (fun c => [c]) := by decide

theorem upper_singleton_of_not_mem {c : Char} (h : c ∉ "abcdefghijklmnopqrstuvwxyz".toList) :
    upper [c] = [c] := by
  have hc : ¬ isLower c = true := fun hl => h (mem_lowerAlphabet_of_isLower hl)
  simp [upper, upperChar, hc]

@[simp] theorem upper_nil : upper [] = [] := rfl

@[simp] theorem upper_cons (c : Char) (s : Text) : upper (c :: s) = upperChar c :: upper s := rfl

theorem upper_append (s t : Text) : upper (s ++ t) = upper s ++ upper t := List.map_append

@[simp] theorem upper_upper (s : Text) : upper (upper s) = upper s := by simp [upper]

/-- Whitespace is no letter, so trimming and upper-casing commute. -/
theorem trim_upper (s : Text) : trim (upper s) = upper (trim s) := by
  have hw : isWhitespace ∘ upperChar = isWhitespace := funext isWhitespace_upperChar
  simp [trim, trimLeft, trimRight, upper, List.dropWhile_map, ← List.map_reverse, hw]

/-- Cutting at a character that is no letter and upper-casing commute. -/
theorem cutAt_upper {c : Char} (h : isLetter c = false) (s : Text) :
    cutAt c (upper s) = upper (cutAt c s) := by
  have hc : (fun d => d != c) ∘ upperChar = fun d => d != c := by
    funext d
    rw [Function.comp_apply, Bool.eq_iff_iff, bne_iff_ne, bne_iff_ne, Ne, Ne, upperChar_eq_iff h]
  simp only [cutAt, upper, List.takeWhile_map, hc]

theorem mem_upper_iff {c : Char} (h : isLetter c = false) (s : Text) : c ∈ upper s ↔ c ∈ s := by
  simp [upper, upperChar_eq_iff h]

/-- The first separator of an upper-cased text stands where that of the text does. -/
theorem splitFirst_upper {c : Char} (h : isLetter c = false) (s : Text) :
    splitFirst c (upper s) = (splitFirst c s).map (Prod.map upper upper) := by
  have hc : upperChar c = c := (upperChar_eq_iff h).2 rfl
  cases hs : splitFirst c s with
  | none =>
    rw [splitFirst_eq_none] at hs
    simpa [splitFirst_eq_none, mem_upper_iff h] using hs
  | some p =>
    obtain ⟨a, b⟩ := p
    obtain ⟨rfl, ha⟩ := splitFirst_eq_some.1 hs
    exact splitFirst_eq_some.2 ⟨by simp [upper_append, hc], by rwa [mem_upper_iff h]⟩

@[simp] theorem endsToken_upper (s : Text) : endsToken (upper s) = endsToken s := by
  cases s with
  | nil => rfl
  | cons c s => exact isWhitespace_upperChar c

theorem extendToken_upper (c : Char) (ts : List Text) :
    extendToken (upperChar c) (ts.map upper) = (extendToken c ts).map upper := by
  cases ts <;> rfl

/-- The tokens of an upper-cased text are those of the text, upper-cased. -/
theorem tokens_upper (s : Text) : tokens (upper s) = (tokens s).map upper := by
  induction s with
  | nil => rfl
  | cons c s ih =>
    simp only [upper_cons, tokens, isWhitespace_upperChar, endsToken_upper, ih, extendToken_upper]
    split
    · rfl
    · split <;> rfl

theorem dropSign_cons {c : Char} (s : Text) (hp : c ≠ '+') (hm : c ≠ '-') :
    dropSign (c :: s) = c :: s := by
  simp [dropSign, hp, hm]

/-- The signs are no letters. -/
theorem dropSign_upper (s : Text) : dropSign (upper s) = upper (dropSign s) := by
  cases s with
  | nil => rfl
  | cons c s =>
    by_cases hp : c = '+'
    · subst hp; rfl
    · by_cases hm : c = '-'
      · subst hm; rfl
      · have hp' : upperChar c ≠ '+' := by rwa [Ne, upperChar_eq_iff (by decide)]
        have hm' : upperChar c ≠ '-' := by rwa [Ne, upperChar_eq_iff (by decide)]
        rw [dropSign_cons s hp hm, upper_cons, dropSign_cons _ hp' hm']

@[simp] theorem isDigits_upper (s : Text) : isDigits (upper s) = isDigits s := by
  simp [isDigits, upper, List.all_map, Function.comp_def]

@[simp] theorem isIntLiteral_upper (s : Text) : isIntLiteral (upper s) = isIntLiteral s := by
  rw [isIntLiteral, dropSign_upper, isDigits_upper, isIntLiteral]

theorem upperChar_of_isDigit {c : Char} (h : isDigit c = true) : upperChar c = c := by
  rw [isDigit_iff] at h
  rw [char_eq_iff, toNat_upperChar, if_neg (by omega)]

/-- An integer literal holds no letter. -/
theorem upper_of_isIntLiteral {s : Text} (h : isIntLiteral s = true) : upper s = s := by
  have hdigits : ∀ ds : Text, isDigits ds = true → upper ds = ds := by
    intro ds hds
    simp only [isDigits, Bool.and_eq_true, List.all_eq_true] at hds
    obtain ⟨-, hall⟩ := hds
    calc ds.map upperChar
        = ds.map id := List.map_congr_left fun c hc => upperChar_of_isDigit (hall c hc)
      _ = ds := List.map_id ds
  cases s with
  | nil => rfl
  | cons c s =>
    by_cases hp : c = '+'
    · subst hp; exact congrArg (List.cons '+') (hdigits s h)
    · by_cases hm : c = '-'
      · subst hm; exact congrArg (List.cons '-') (hdigits s h)
      · rw [isIntLiteral, dropSign_cons s hp hm] at h
        exact hdigits _ h

/-- The fields of an instruction decode as the upper-cased fields do: the mnemonic and the register name
are upper-cased anyway (R69, R70), and a target that is an integer literal is its own upper case. -/
theorem decodeFields_upper (l : Nat) (tk : List Text) :
    decodeFields l (tk.map upper) = decodeFields l tk := by
  rcases tk with _ | ⟨m, _ | ⟨g, ts⟩⟩
  · rfl
  · simp [decodeFields]
  · have hall : (ts.map upper).all isIntLiteral = ts.all isIntLiteral := by
      simp [List.all_map, Function.comp_def]
    simp only [decodeFields, List.map_cons, upper_upper, List.length_map, hall]
    by_cases hts : ts.all isIntLiteral = true
    · have hself : ts.map upper = ts := by
        calc ts.map upper
            = ts.map id := List.map_congr_left fun t ht =>
              upper_of_isIntLiteral (List.all_eq_true.1 hts t ht)
          _ = ts := List.map_id ts
      rw [hself]
    · simp [hts]

/-- A comment character is no letter (R11). -/
theorem isLetter_commentChar {cfg : Config} (h : cfg.wf = true) : isLetter cfg.commentChar = false := by
  simp only [Config.wf, commentCharOk, Bool.and_eq_true, Bool.not_eq_true'] at h
  obtain ⟨-, ⟨⟨⟨-, hletter⟩, -⟩, -⟩, -⟩ := h
  exact hletter

/-- Step 1 of the decoder commutes with upper-casing (R65). -/
theorem cleanLine_upper {cfg : Config} (h : cfg.wf = true) (raw : Text) :
    cleanLine cfg (upper raw) = upper (cleanLine cfg raw) := by
  simp only [cleanLine, trim_upper, cutAt_upper (isLetter_commentChar h)]

/-- A line decodes as its upper-cased text does (R86). -/
theorem decodeLine_upper {cfg : Config} (h : cfg.wf = true) (raw : Text) :
    decodeLine cfg (upper raw) = decodeLine cfg raw := by
  have hempty : (upper (cleanLine cfg raw)).isEmpty = (cleanLine cfg raw).isEmpty := List.isEmpty_map
  simp only [decodeLine, cleanLine_upper h, hempty, splitFirst_upper (c := ':') (by decide)]
  cases splitFirst ':' (cleanLine cfg raw) with
  | none => rfl
  | some p =>
    obtain ⟨lp, ip⟩ := p
    simp only [Option.map_some, Prod.map_apply, trim_upper, isIntLiteral_upper, tokens_upper,
      decodeFields_upper]
    by_cases hl : isIntLiteral (trim lp) = true
    · rw [upper_of_isIntLiteral hl]
    · simp [hl]

/-- Settles O6: every step of the decoder commutes with upper-casing or ignores it (`decodeLine_upper`). -/
theorem letterCaseIsIgnored : Obligations.LetterCaseIsIgnored :=
  ⟨⟨upper_lowerAlphabet, fun _ => upper_singleton_of_not_mem, upper_append⟩,
    fun _ raw h => decodeLine_upper h raw⟩

end LetterCase

end Sys2Proof.Machine
end

section
/-! PROOFS. The state as the scope describes it (R23 to R43): what one step can leave, the invariant of
machine states, the frame of a whole run, the host's abort request during a run, and the form of records and
programs. -/

namespace Sys2Proof.Machine

section Records

theorem arity_eq (op : Operation) : op.arity = if op = .testZero then 2 else 1 := by
  cases op <;> rfl

theorem sourceRecord_wf_iff (r : SourceRecord) :
    r.wf = true ↔ 0 ≤ r.label ∧ r.targets.length = r.operation.arity := by
  simp [SourceRecord.wf]

/-- The record of an instruction is well formed (R37). -/
theorem record_wf (l : Nat) (i : Instr) : (i.record l).wf = true := by
  cases i with
  | add r t => exact Laws.ArityHolds.add r t l
  | sub r t => exact Laws.ArityHolds.sub r t l
  | zer r t0 t1 => exact Laws.ArityHolds.zer r t0 t1 l

/-- The instruction that a record stands for has that record, and no other does. -/
theorem toInstr_eq_some {r : SourceRecord} {l : Nat} {i : Instr} :
    r.toInstr = some (l, i) ↔ r = i.record l := by
  constructor
  · intro h
    obtain ⟨label, op, reg, ts⟩ := r
    simp only [SourceRecord.toInstr, Option.ite_none_right_eq_some, Option.map_eq_some_iff,
      Prod.mk.injEq] at h
    obtain ⟨hwf, j, hj, rfl, rfl⟩ := h
    obtain ⟨rfl, rfl, rfl⟩ := instrOf_eq_some.1 hj
    obtain ⟨hlabel, -⟩ := (sourceRecord_wf_iff _).1 hwf
    simp [Instr.record, Int.toNat_of_nonneg hlabel]
  · rintro rfl
    rw [SourceRecord.toInstr, if_pos (record_wf l i)]
    simp [Instr.record]

/-- A well-formed record stands for an instruction. -/
theorem exists_toInstr_of_wf {r : SourceRecord} (h : r.wf = true) :
    ∃ l i, r.toInstr = some (l, i) := by
  obtain ⟨-, hlen⟩ := (sourceRecord_wf_iff r).1 h
  obtain ⟨i, hi⟩ := exists_instrOf r.register hlen
  exact ⟨r.label.toNat, i, by rw [SourceRecord.toInstr, if_pos h, hi]; rfl⟩

/-- Settles O10: a well-formed record stands for an instruction, whose record it is (`toInstr_eq_some`). -/
theorem wellFormedRecordsAreInstructions : Obligations.WellFormedRecordsAreInstructions := by
  intro r
  refine ⟨by rw [sourceRecord_wf_iff, arity_eq], ⟨fun h => ?_, ?_⟩, fun l i => toInstr_eq_some⟩
  · obtain ⟨l, i, hi⟩ := exists_toInstr_of_wf h
    exact ⟨l, i, toInstr_eq_some.1 hi⟩
  · rintro ⟨l, i, rfl⟩
    exact record_wf l i

end Records

section Programs

/-- What the load port returns is a program (R38). -/
theorem wf_of_load {cfg : Config} {source : Option (List Text)} {P : Program} {D : List Diagnostic}
    (h : load cfg source = .loaded P D) : P.WF := by
  cases source with
  | none => cases h
  | some lines =>
    obtain ⟨-, hwf, -, -⟩ := load_eq_loaded h
    exact hwf

/-- Read after insert, for every value that `pc` can have. -/
theorem fetch_programInsert {P : Program} (h : P.Canonical) (l : Nat) (i : Instr) (t : Int) :
    fetch (programInsert P l i) t = if t = l then some i else fetch P t := by
  cases t with
  | ofNat k =>
    have hk : (Int.ofNat k = l) ↔ l = k := by simp [eq_comm]
    simp only [hk]
    exact lookupLabel_insertLabel h l i k
  | negSucc n => simp

/-- An instruction that is fetched is an entry of its program. -/
theorem mem_entries_of_fetch {P : Program} {t : Int} {i : Instr} (h : fetch P t = some i) :
    ∃ l : Nat, (l, i) ∈ P.entries := by
  obtain ⟨l, -, hl⟩ := exists_label_of_fetch h
  exact ⟨l, mem_of_lookupLabel hl⟩

theorem isDefined_eq_false {P : Program} {t : Int} : isDefined P t = false ↔ fetch P t = none := by
  simp [isDefined]

/-- Settles O22: loads store their lines one after another, and each insertion keeps the form. -/
theorem loadedProgramsAreWellFormed : Obligations.LoadedProgramsAreWellFormed :=
  ⟨fun _ _ _ _ => wf_of_load,
    fun _ l i h => ⟨programInsert_wf h l i, fetch_programInsert h l i⟩⟩

end Programs

section StepEquations

variable {s : State} {P : Program} {t : Int} {i : Instr}

theorem step_of_idle (h : s.runState = .idle) : step s = .refused .runNotStarted := by
  simp [step, sequencerStep, h]

theorem step_of_halted (h : s.runState = .halted) : step s = .refused .runEnded := by
  simp [step, sequencerStep, h]

theorem step_of_aborted (h : s.runState = .aborted) : step s = .refused .runEnded := by
  simp [step, sequencerStep, h]

theorem step_of_faulted {l : Int} {r : Reg} (h : s.runState = .faulted l r) :
    step s = .fault (.registerOverflow l r) := by
  simp [step, sequencerStep, h]

theorem step_of_no_prog (hr : s.runState = .running) (hP : s.prog = none) :
    step s = .refused .noProgram := by
  simp [step, sequencerStep, hr, hP]

theorem step_of_no_pc (hr : s.runState = .running) (hP : s.prog = some P) (ht : s.pc = none) :
    step s = .fault .pcUnset := by
  simp [step, sequencerStep, hr, hP, ht]

/-- A step at a defined label runs its instruction (R96). -/
theorem step_of_fetch (hr : s.runState = .running) (hP : s.prog = some P) (ht : s.pc = some t)
    (hi : fetch P t = some i) : step s = afterInstr (exec i (s.emitStep t i)) := by
  simp [step, sequencerStep, hr, hP, ht, hi]

/-- A step at any other value of `pc` halts (R99). -/
theorem step_of_undefined (hr : s.runState = .running) (hP : s.prog = some P) (ht : s.pc = some t)
    (hi : fetch P t = none) : step s = .next (s.halt t) := by
  simp [step, sequencerStep, hr, hP, ht, hi]

/-- An ADD at the bound finds no `pc` to record (R29, log 11). -/
theorem exec_add_of_no_pc {r : Reg} {w : Nat} (hb : s.cfg.regBound = .bits w)
    (hv : s.readReg r = 2 ^ w - 1) (ht : s.pc = none) : exec (.add r t) s = .fault .pcUnset := by
  simp [exec, execAdd, increment, State.raiseOverflow, hb, hv, ht]

end StepEquations

section StepOutcomes

theorem State.abortCheck_of_not_running {s : State} (h : s.runState ≠ .running) : s.abortCheck = s := by
  simp [State.abortCheck, h]

/-- After the abort check of a machine whose run goes on, it goes on or is aborted. -/
theorem State.abortCheck_runState_of_running {s : State} (h : s.runState = .running) :
    s.abortCheck.runState = .running ∨ s.abortCheck.runState = .aborted := by
  rw [State.abortCheck_runState, h]
  split
  · exact .inr rfl
  · exact .inl rfl

/-- An instruction goes to one of its targets (R32), or it is an ADD at the bound, which changes the run
state alone (R110). -/
theorem exec_jumps_or_overflows {i : Instr} {s u : State} (h : exec i s = .next u) :
    (u.runState = s.runState ∧ ∃ p ∈ i.targets, u.pc = some p) ∨
    (∃ r t w l, i = .add r t ∧ s.cfg.regBound = .bits w ∧ s.readReg r = 2 ^ w - 1 ∧
      s.pc = some l ∧ u = { s with runState := .faulted l r }) := by
  rcases exec_cases h with ⟨r, t, v, rfl, -, rfl⟩ | ⟨r, t, l, rfl, hv, hl, rfl⟩ | ⟨r, t, rfl, rfl⟩ |
    ⟨r, t0, t1, rfl, rfl⟩
  · exact .inl ⟨rfl, t, by simp [Instr.targets], rfl⟩
  · obtain ⟨w, hb, hv⟩ := increment_eq_none hv
    exact .inr ⟨r, t, w, l, rfl, hb, hv, hl, rfl⟩
  · exact .inl ⟨rfl, t, by simp [Instr.targets], rfl⟩
  · refine .inl ⟨rfl, _, ?_, rfl⟩
    by_cases hz : isZero (s.readReg r) = true <;> simp [Instr.targets, hz]

/-- An instruction that ends a run `FAULTED` has written no register (R110). -/
theorem exec_faulted_x {i : Instr} {s u : State} {l : Int} {r : Reg} (hr : s.runState = .running)
    (h : exec i s = .next u) (hf : u.runState = .faulted l r) : u.x = s.x := by
  rcases exec_jumps_or_overflows h with ⟨hu, -⟩ | ⟨q, t, w, l', -, -, -, -, rfl⟩
  · simp [hu, hr] at hf
  · rfl

/-- What a step that answers a next state has done, by how it leaves the run: an instruction that jumps,
then the abort check; an ADD that overflows; or the halt. -/
theorem step_outcomes {s s' : State} (h : step s = .next s') :
    s.runState = .running ∧ ∃ P t, s.prog = some P ∧ s.pc = some t ∧
      ((∃ i u p, fetch P t = some i ∧ exec i (s.emitStep t i) = .next u ∧ u.runState = .running ∧
          p ∈ i.targets ∧ u.pc = some p ∧ s' = u.abortCheck) ∨
       (∃ r a w, fetch P t = some (.add r a) ∧ s.cfg.regBound = .bits w ∧ s.readReg r = 2 ^ w - 1 ∧
          s' = { s.emitStep t (.add r a) with runState := .faulted t r }) ∨
       (fetch P t = none ∧ s' = s.halt t)) := by
  obtain ⟨hr, P, t, hP, ht, hcase⟩ := step_cases h
  refine ⟨hr, P, t, hP, ht, ?_⟩
  rcases hcase with ⟨i, u, hi, hx, rfl⟩ | hhalt
  · rcases exec_jumps_or_overflows hx with ⟨hu, p, hp, hpc⟩ | ⟨r, a, w, l, rfl, hb, hv, hl, rfl⟩
    · exact .inl ⟨i, u, p, hi, hx, hu.trans hr, hp, hpc, rfl⟩
    · obtain rfl : t = l := Option.some.inj (ht.symm.trans hl)
      exact .inr (.inl ⟨r, a, w, hi, hb, hv, State.abortCheck_of_not_running (by simp)⟩)
  · exact .inr (.inr hhalt)

/-- Settles O31: by the three outcomes of a step; only an instruction that jumps writes `pc`. -/
theorem programCounterComesFromTargets : Obligations.ProgramCounterComesFromTargets := by
  intro s s' h
  obtain ⟨-, P, t, hP, ht, ⟨i, u, p, hi, -, hu, hp, hpc, rfl⟩ | ⟨r, a, w, -, -, -, rfl⟩ | ⟨-, rfl⟩⟩ :=
    step_outcomes h
  · exact .inl ⟨P, t, i, p, hP, ht, hi, by simpa using hpc, hp, State.abortCheck_runState_of_running hu⟩
  · exact .inr ⟨rfl, .inr ⟨t, r, rfl⟩⟩
  · exact .inr ⟨rfl, .inl rfl⟩

/-- Settles O39: by the three outcomes of a step; the other two leave the run going on, aborted or halted. -/
theorem onlyAnOverflowFaults : Obligations.OnlyAnOverflowFaults := by
  intro s s' l r h hf
  obtain ⟨-, P, t, hP, ht, ⟨i, u, p, -, -, hu, -, -, rfl⟩ | ⟨q, a, w, hi, hb, hv, rfl⟩ | ⟨-, rfl⟩⟩ :=
    step_outcomes h
  · rcases State.abortCheck_runState_of_running hu with hs | hs <;> simp [hs] at hf
  · cases hf
    exact ⟨P, a, w, hP, ht, hi, hb, hv⟩
  · simp at hf

/-- An instruction that changes a register is an ADD or a SUB that names it (R28). -/
theorem exec_writes_named {i : Instr} {s u : State} {q : Reg} (h : exec i s = .next u)
    (hq : u.readReg q ≠ s.readReg q) : ∃ a, i = .add q a ∨ i = .sub q a := by
  obtain rfl : q = i.register := by
    by_contra hne
    exact hq (exec_keeps_reg h hne)
  cases i with
  | add r a => exact ⟨a, .inl rfl⟩
  | sub r a => exact ⟨a, .inr rfl⟩
  | zer r t0 t1 => cases h; exact absurd rfl hq

/-- Settles O32: the snapshot, the abort check and the halt write no register, so the instruction did. -/
theorem stepWritesOnlyTheNamedRegister : Obligations.StepWritesOnlyTheNamedRegister := by
  intro s s' q h hq
  obtain ⟨-, P, t, hP, ht, ⟨i, u, hi, hx, rfl⟩ | ⟨-, rfl⟩⟩ := step_cases h
  · obtain ⟨a, rfl | rfl⟩ := exec_writes_named (q := q) hx (by simpa using hq)
    · exact ⟨P, t, a, hP, ht, .inl hi⟩
    · exact ⟨P, t, a, hP, ht, .inr hi⟩
  · simp at hq

end StepOutcomes

section Life

variable {s : State}

theorem State.lifeOk_idle (h : s.runState = .idle) : s.LifeOk ↔
    s.pc = none ∧ s.prog = none ∧ s.x = RegFile.zero ∧ s.trace = [] ∧ s.diagnostics = [] := by
  simp only [State.LifeOk, h]

theorem State.lifeOk_running (h : s.runState = .running) : s.LifeOk ↔
    ∃ P t, s.prog = some P ∧ P.WF ∧ s.pc = some t ∧ TraceOpen s.cfg P s.trace := by
  simp only [State.LifeOk, h]

theorem State.lifeOk_halted (h : s.runState = .halted) : s.LifeOk ↔
    ∃ P t before, s.prog = some P ∧ P.WF ∧ s.pc = some t ∧ isDefined P t = false ∧
      TraceOpen s.cfg P before ∧ s.trace = before ++ [haltedSnapshot s.x t] := by
  simp only [State.LifeOk, h]

theorem State.lifeOk_aborted (h : s.runState = .aborted) : s.LifeOk ↔
    ∃ P t, s.prog = some P ∧ P.WF ∧ s.pc = some t ∧ TraceOpen s.cfg P s.trace ∧
      s.cfg.abortSupported = true ∧ s.abortReq = true := by
  simp only [State.LifeOk, h]

theorem State.lifeOk_faulted {l : Int} {r : Reg} (h : s.runState = .faulted l r) : s.LifeOk ↔
    ∃ P t w, s.prog = some P ∧ P.WF ∧ s.pc = some l ∧ fetch P l = some (.add r t) ∧
      s.cfg.regBound = .bits w ∧ s.readReg r = 2 ^ w - 1 ∧ TraceOpen s.cfg P s.trace := by
  simp only [State.LifeOk, h]

/-- The abort check leaves a machine at a point of its life. -/
theorem State.LifeOk.abortCheck (h : s.LifeOk) : s.abortCheck.LifeOk := by
  unfold State.abortCheck
  split
  · next hc =>
    simp only [Bool.and_eq_true, beq_iff_eq] at hc
    obtain ⟨⟨hsup, hreq⟩, hr⟩ := hc
    obtain ⟨P, t, hP, hwf, ht, htr⟩ := (State.lifeOk_running hr).1 h
    exact (State.lifeOk_aborted rfl).2 ⟨P, t, hP, hwf, ht, htr, hsup, hreq⟩
  · exact h

/-- A request leaves a machine at the point of its life where it is: only an aborted one needs a request. -/
theorem State.LifeOk.raised (h : s.LifeOk) : State.LifeOk { s with abortReq := true } := by
  cases hr : s.runState with
  | idle => exact (State.lifeOk_idle rfl).2 ((State.lifeOk_idle hr).1 h)
  | running => exact (State.lifeOk_running rfl).2 ((State.lifeOk_running hr).1 h)
  | halted => exact (State.lifeOk_halted rfl).2 ((State.lifeOk_halted hr).1 h)
  | aborted =>
    obtain ⟨P, t, hP, hwf, ht, htr, hsup, -⟩ := (State.lifeOk_aborted hr).1 h
    exact (State.lifeOk_aborted rfl).2 ⟨P, t, hP, hwf, ht, htr, hsup, rfl⟩
  | faulted l r => exact (State.lifeOk_faulted rfl).2 ((State.lifeOk_faulted hr).1 h)

end Life

section Traces

variable {cfg : Config} {P : Program}

/-- A run's trace is open when the run starts (R94). -/
theorem traceOpen_entry {start : Nat} (h : startLabel P = some start) (x : RegFile) :
    TraceOpen cfg P [entrySnapshot x start] :=
  ⟨start, x, [], h, rfl, by simp⟩

/-- A `STEP` snapshot at a defined label keeps it open (R96). -/
theorem TraceOpen.append_step {trace : List Snapshot} (h : TraceOpen cfg P trace) {t : Int} {i : Instr}
    (hi : fetch P t = some i) (x : RegFile) : TraceOpen cfg P (trace ++ [stepSnapshot cfg x t i]) := by
  obtain ⟨start, y, steps, hstart, rfl, hsteps⟩ := h
  refine ⟨start, y, steps ++ [stepSnapshot cfg x t i], hstart, rfl, fun snap hsnap => ?_⟩
  rcases List.mem_append.1 hsnap with hsnap | hsnap
  · exact hsteps snap hsnap
  · rw [List.mem_singleton.1 hsnap]
    exact ⟨i, hi, rfl⟩

end Traces

section Domain

/-- The domain invariant speaks of the parameters and the registers only. -/
theorem State.RegsFit.of_eq {s u : State} (h : s.RegsFit) (hcfg : u.cfg = s.cfg) (hx : u.x = s.x) :
    u.RegsFit := by
  intro r
  rw [hcfg, State.readReg_def, hx]
  exact h r

/-- A write of a value of the domain keeps the registers in it. -/
theorem State.RegsFit.writeReg {s : State} (h : s.RegsFit) (r : Reg) {v : Nat}
    (hv : s.cfg.regBound.holds v = true) : (s.writeReg r v).RegsFit := by
  intro q
  by_cases hq : q = r
  · subst hq; simpa using hv
  · simpa [hq] using h q

/-- Every instruction keeps the registers in their domain (R26). -/
theorem State.RegsFit.exec {i : Instr} {s u : State} (hs : s.RegsFit) (h : exec i s = .next u) :
    u.RegsFit := by
  rcases exec_cases h with ⟨r, t, v, -, hv, rfl⟩ | ⟨r, t, l, -, -, -, rfl⟩ | ⟨r, t, -, rfl⟩ |
    ⟨r, t0, t1, -, rfl⟩
  · exact (hs.writeReg r (holds_of_increment (hs r) hv)).of_eq rfl rfl
  · exact hs.of_eq rfl rfl
  · exact (hs.writeReg r (holds_of_le (hs r) (decrement_le _))).of_eq rfl rfl
  · exact hs.of_eq rfl rfl

/-- Every step does: the snapshot, the abort check and the halt write no register. -/
theorem State.RegsFit.step {s s' : State} (hs : s.RegsFit) (h : step s = .next s') : s'.RegsFit := by
  obtain ⟨-, P, t, -, -, ⟨i, u, -, hx, rfl⟩ | ⟨-, rfl⟩⟩ := step_cases h
  · have hu : u.RegsFit := State.RegsFit.exec (s := s.emitStep t i) (hs.of_eq rfl rfl) hx
    exact hu.of_eq (by simp) (by simp)
  · exact hs.of_eq rfl rfl

end Domain

section Invariant

variable {s s' : State}

/-- Where a step leaves a running machine in its life, by the three outcomes of a step. -/
theorem State.LifeOk.step (hs : s.LifeOk) (h : step s = .next s') : s'.LifeOk := by
  obtain ⟨hr, P, t, hP, ht, hcase⟩ := step_outcomes h
  obtain ⟨P', t', hP', hwf, -, htr⟩ := (State.lifeOk_running hr).1 hs
  obtain rfl : P = P' := Option.some.inj (hP.symm.trans hP')
  rcases hcase with ⟨i, u, p, hi, hx, hu, -, hpc, rfl⟩ | ⟨r, a, w, hi, hb, hv, rfl⟩ | ⟨hi, rfl⟩
  · obtain ⟨hcfg, hprog, -, htrace, -⟩ := exec_keeps hx
    have hopen : TraceOpen u.cfg P u.trace := by
      rw [hcfg, htrace]
      exact htr.append_step hi s.x
    exact ((State.lifeOk_running hu).2 ⟨P, p, hprog.trans hP, hwf, hpc, hopen⟩).abortCheck
  · exact (State.lifeOk_faulted rfl).2 ⟨P, a, w, hP, hwf, ht, hi, hb, hv, htr.append_step hi s.x⟩
  · exact (State.lifeOk_halted rfl).2
      ⟨P, t, s.trace, hP, hwf, ht, isDefined_eq_false.2 hi, htr, rfl⟩

/-- Settles O49: a step keeps both parts of the invariant. -/
theorem stepsKeepTheInvariant : Obligations.StepsKeepTheInvariant :=
  fun _ _ hs h => ⟨hs.regsFit.step h, hs.lifeOk.step h⟩

/-- Settles O47: every register is 0, and the machine is `IDLE` with nothing placed (R43). -/
theorem resetSatisfiesTheInvariant : Obligations.ResetSatisfiesTheInvariant where
  regsFit r := by
    rw [State.readReg_def, State.reset, State.construct, RegFile.read_zero]
    exact holds_zero _
  lifeOk := (State.lifeOk_idle rfl).2 ⟨rfl, rfl, rfl, rfl, rfl⟩

/-- The start of a run: its registers are in the domain, and its trace is the entry snapshot (R94). -/
theorem State.Inv.of_startRun {program : Option Program} {entries : List InitEntry} (hs : s.Inv)
    (h : startRun s program entries = .next s') : s'.Inv := by
  obtain ⟨P, start, x, ws, hr, -, hwf, hstart, hx, rfl⟩ := startRun_cases h
  obtain ⟨-, -, -, htrace, -⟩ := (State.lifeOk_idle hr).1 hs.lifeOk
  constructor
  · exact applyEntries_fit (fun r => by simpa using holds_zero _) hx
  · refine (State.lifeOk_running rfl).2 ⟨P, start, rfl, hwf, rfl, ?_⟩
    rw [State.begin_trace, htrace]
    exact traceOpen_entry hstart x

/-- A request changes the request only. -/
theorem State.Inv.of_raiseAbort (hs : s.Inv) (h : raiseAbort s = .next s') : s'.Inv := by
  unfold raiseAbort at h
  split at h
  · cases h
    exact ⟨hs.regsFit.of_eq rfl rfl, hs.lifeOk.raised⟩
  · cases h

/-- Settles O48: by what the start of a run and the abort port can do. -/
theorem portsKeepTheInvariant : Obligations.PortsKeepTheInvariant :=
  ⟨fun _ _ _ _ hs h => hs.of_startRun h, fun _ _ hs h => hs.of_raiseAbort h⟩

/-- A running machine with a program and a `pc` has a next state (R95). -/
theorem exists_step_of_running {P : Program} {t : Int} (hr : s.runState = .running)
    (hP : s.prog = some P) (ht : s.pc = some t) : ∃ s', step s = .next s' := by
  cases hi : fetch P t with
  | none => exact ⟨_, step_of_undefined hr hP ht hi⟩
  | some i =>
    rw [step_of_fetch hr hP ht hi]
    rcases exec_total i (s.emitStep t i) with ⟨u, hx⟩ | ⟨-, hpc⟩
    · exact ⟨u.abortCheck, by rw [hx]; rfl⟩
    · simp [ht] at hpc

/-- Under the invariant a step never reads an `UNSET` `pc` and never lacks its program. -/
theorem step_ne_unset (hs : s.Inv) : step s ≠ .fault .pcUnset ∧ step s ≠ .refused .noProgram := by
  cases hr : s.runState with
  | idle => simp [step_of_idle hr]
  | running =>
    obtain ⟨P, t, hP, -, ht, -⟩ := (State.lifeOk_running hr).1 hs.lifeOk
    obtain ⟨s', h⟩ := exists_step_of_running hr hP ht
    simp [h]
  | halted => simp [step_of_halted hr]
  | aborted => simp [step_of_aborted hr]
  | faulted l r => simp [step_of_faulted hr]

/-- Settles O41: the invariant gives a running machine its program and its `pc`; the stops elsewhere are read
off the equations of a step. -/
theorem unsetStateIsNeverRead : Obligations.UnsetStateIsNeverRead :=
  ⟨fun _ => step_of_idle, fun _ => step_ne_unset, fun _ _ => step_of_no_pc,
    fun _ _ _ _ => exec_add_of_no_pc, fun _ => step_of_no_prog⟩

end Invariant

section Runs

/-- What every step keeps, every run keeps. -/
theorem run_keeps {I : State → Prop} (hstep : ∀ s s', I s → step s = .next s' → I s') {k : Nat}
    {s s' : State} (hs : I s) (h : Host.Core.run Sys2Proof.core k s = .next s') : I s' := by
  induction k generalizing s with
  | zero => rwa [run_zero h]
  | succ k ih =>
    obtain ⟨u, hu, hrest⟩ := run_succ h
    exact ih (hstep s u hs hu) hrest

/-- What no step changes, and the one snapshot it adds to the trace (R41, R42, R46, R57). -/
theorem step_keeps {s s' : State} (h : step s = .next s') :
    s'.prog = s.prog ∧ s'.cfg = s.cfg ∧ s'.abortReq = s.abortReq ∧ s'.diagnostics = s.diagnostics ∧
      ∃ snap, s'.trace = s.trace ++ [snap] := by
  obtain ⟨-, P, t, -, -, ⟨i, u, -, hx, rfl⟩ | ⟨-, rfl⟩⟩ := step_cases h
  · obtain ⟨hcfg, hprog, hreq, htrace, hdiag⟩ := exec_keeps hx
    simp [hcfg, hprog, hreq, htrace, hdiag]
  · simp

/-- Settles O53: by induction on the number of steps, with the frame of one step. -/
theorem runsNeverChangeTheProgram : Obligations.RunsNeverChangeTheProgram := by
  intro k
  induction k with
  | zero =>
    intro s s' h
    obtain rfl := run_zero h
    exact ⟨rfl, rfl, rfl, rfl, [], by simp⟩
  | succ k ih =>
    intro s s' h
    obtain ⟨u, hu, hrest⟩ := run_succ h
    obtain ⟨hprog, hcfg, hreq, hdiag, snap, htrace⟩ := step_keeps hu
    obtain ⟨hprog', hcfg', hreq', hdiag', more, htrace', hmore⟩ := ih u s' hrest
    exact ⟨hprog'.trans hprog, hcfg'.trans hcfg, hreq'.trans hreq, hdiag'.trans hdiag,
      snap :: more, by simp [htrace', htrace], by simp [hmore]⟩

/-- A step keeps a register that no instruction of the program names. -/
theorem step_keeps_unnamed {s s' : State} {P : Program} {q : Reg} (hP : s.prog = some P)
    (hq : ∀ e ∈ P.entries, e.2.register ≠ q) (h : step s = .next s') : s'.readReg q = s.readReg q := by
  obtain ⟨-, P', t, hP', -, ⟨i, u, hi, hx, rfl⟩ | ⟨-, rfl⟩⟩ := step_cases h
  · obtain rfl : P = P' := Option.some.inj (hP.symm.trans hP')
    obtain ⟨l, hl⟩ := mem_entries_of_fetch hi
    simpa using exec_keeps_reg hx (hq (l, i) hl).symm
  · rfl

/-- The register set that a run returns is the one it leaves (R98, R99, R110). -/
theorem State.registers_of_result {s : State} {x : RegFile} (h : s.result = some (.halted x) ∨
    s.result = some (.aborted x) ∨ ∃ l r, s.result = some (.faulted x l r)) : x = s.x := by
  cases hr : s.runState with
  | idle => simp [State.result, hr] at h
  | running => simp [State.result, hr] at h
  | halted => simpa [State.result, hr, eq_comm] using h
  | aborted => simpa [State.result, hr, eq_comm] using h
  | faulted l r => simpa [State.result, hr, eq_comm] using h

/-- Settles O52: the program stays and each step keeps the register, so every run does; and the register set
returned is the one left. -/
theorem unnamedRegistersKeepTheirValues : Obligations.UnnamedRegistersKeepTheirValues := by
  intro k s s' P q hP hq h
  have hkeep : s'.prog = some P ∧ s'.readReg q = s.readReg q := by
    refine run_keeps (I := fun u => u.prog = some P ∧ u.readReg q = s.readReg q) ?_ ⟨hP, rfl⟩ h
    rintro u u' ⟨huP, huq⟩ hu
    obtain ⟨hprog, -⟩ := step_keeps hu
    exact ⟨hprog.trans huP, (step_keeps_unnamed huP hq hu).trans huq⟩
  obtain ⟨-, hval⟩ := hkeep
  refine ⟨hval, fun x hx => ?_⟩
  rw [State.registers_of_result hx]
  exact hval

end Runs

section HostRequest

variable {u v : State} {P : Program} {t : Int} {i : Instr}

/-- A request at a `pc` that names no instruction is not seen: the run halts (R99, R113). -/
theorem runTurn_request_undefined (hsup : u.cfg.abortSupported = true) (hr : u.runState = .running)
    (hP : u.prog = some P) (ht : u.pc = some t) (hi : fetch P t = none) :
    runTurn true u = .next (State.halt { u with abortReq := true } t) := by
  rw [runTurn_true hsup]
  exact step_of_undefined hr hP ht hi

/-- A request at a `pc` that names an instruction is seen by the check after it (R98). -/
theorem runTurn_request_fetch (hsup : u.cfg.abortSupported = true) (hr : u.runState = .running)
    (hP : u.prog = some P) (ht : u.pc = some t) (hi : fetch P t = some i)
    (hx : exec i (u.emitStep t i) = .next v) :
    runTurn true u = .next (State.abortCheck { v with abortReq := true }) := by
  have hraised : exec i (State.emitStep { u with abortReq := true } t i) =
      .next { v with abortReq := true } := exec_raised hx
  rw [runTurn_true hsup, step_of_fetch (s := { u with abortReq := true }) hr hP ht hi, hraised]
  rfl

/-- The check that sees a request aborts a run that goes on. -/
theorem State.abortCheck_requested (hsup : v.cfg.abortSupported = true) (hr : v.runState = .running) :
    State.abortCheck { v with abortReq := true } = { v with abortReq := true, runState := .aborted } := by
  simp [State.abortCheck, hsup, hr]

/-- No run goes on after a check that sees a request. -/
theorem State.abortCheck_requested_ends (hsup : v.cfg.abortSupported = true) :
    (State.abortCheck { v with abortReq := true }).runState ≠ .running := by
  by_cases hr : v.runState = .running
  · simp [State.abortCheck_requested hsup hr]
  · rw [State.abortCheck_of_not_running (s := { v with abortReq := true }) hr]
    exact hr

/-- The run port takes the turns of a run before the host's request, then the turn of the request. -/
theorem runPort_eq_runLoop {s s1 : State} {program : Option Program} {entries : List InitEntry} {k : Nat}
    (hstart : startRun s program entries = .next s1) (hrun : Host.Core.run Sys2Proof.core k s1 = .next u)
    (later : List Bool) :
    runPort (List.replicate k false ++ later) s program entries = runLoop later u := by
  rw [runPort, hstart]
  exact runLoop_run later hrun

/-- A turn that ends the run is the last one. -/
theorem runLoop_of_last_turn {s' : State} {request : Bool} (hr : u.runState = .running)
    (h : runTurn request u = .next s') (hend : s'.runState ≠ .running) (later : List Bool) :
    runLoop (request :: later) u = .next s' := by
  rw [runLoop_of_turn hr h, runLoop_not_running hend]

/-- The parameters of a run are those of the machine it was started on. -/
theorem cfg_of_startRun_run {s s1 : State} {program : Option Program} {entries : List InitEntry} {k : Nat}
    (hstart : startRun s program entries = .next s1)
    (hrun : Host.Core.run Sys2Proof.core k s1 = .next u) : u.cfg = s.cfg := by
  obtain ⟨-, hcfg, -⟩ := runsNeverChangeTheProgram k s1 u hrun
  obtain ⟨P, start, x, ws, -, -, -, -, -, rfl⟩ := startRun_cases hstart
  exact hcfg

/-- Settles O57: the turns before the request are steps; the turn of the request halts the run, aborts it or
leaves it faulted, and the loop does nothing after it. -/
theorem runPortEndsAtTheHostsRequest : Obligations.RunPortEndsAtTheHostsRequest := by
  intro s s1 u program entries k later P t hstart hrun hr hP ht
  rw [runPort_eq_runLoop hstart hrun, ← cfg_of_startRun_run hstart hrun]
  refine ⟨fun hsup => ?_, fun hsup => ?_⟩
  · rw [runLoop, if_pos hr, runTurn_true_refused hsup]
  cases hi : fetch P t with
  | none =>
    have hturn := runTurn_request_undefined hsup hr hP ht hi
    refine ⟨_, runLoop_of_last_turn hr hturn (by simp) later, fun _ => ⟨rfl, rfl⟩, ?_⟩
    intro i v hi'
    cases hi'
  | some i =>
    obtain ⟨v, hx⟩ : ∃ v, exec i (u.emitStep t i) = .next v :=
      (exec_total i _).resolve_right (by simp [ht])
    have hturn := runTurn_request_fetch hsup hr hP ht hi hx
    have hdef : isDefined P t ≠ false := by simp [isDefined_eq_false, hi]
    have hvsup : v.cfg.abortSupported = true := by
      obtain ⟨hcfg, -⟩ := exec_keeps hx
      rw [hcfg]
      exact hsup
    refine ⟨_, runLoop_of_last_turn hr hturn (State.abortCheck_requested_ends hvsup) later,
      fun h => absurd h hdef, fun i' v' hi' hx' => ?_⟩
    cases hi'
    obtain rfl : v = v' := Host.Outcome.next.inj (hx.symm.trans hx')
    refine ⟨fun hv => ?_, fun l r hf => ?_⟩
    · rw [State.abortCheck_requested hvsup hv]
      exact ⟨rfl, rfl⟩
    · have hregs : v.x = u.x := exec_faulted_x (s := u.emitStep t i) hr hx hf
      rw [State.abortCheck_of_not_running (by simp [hf])]
      exact ⟨rfl, by simp [State.result, hf, hregs]⟩

end HostRequest

end Sys2Proof.Machine
end

section
/-! PROOFS. The text format as the spec's encoding chapter describes it (R59 to R89): canonical lines decode
and serialised programs load back, the text operations and the decoder case by case, and what the load port
answers. -/

namespace Sys2Proof.Machine

section CanonicalForms

theorem trim_of_no_whitespace {s : Text} (h : ∀ c ∈ s, isWhitespace c = false) : trim s = s :=
  trim_eq_self (fun c hc => h c (List.mem_of_head? hc)) (fun c hc => h c (List.mem_of_getLast? hc))

theorem trim_natText (l : Nat) : trim (natText l) = natText l :=
  trim_of_no_whitespace fun _ hc => isWhitespace_of_isDigit (isDigit_of_mem_natText hc)

theorem colon_not_mem_natText (l : Nat) : ':' ∉ natText l :=
  fun hm => isDigit_ne_colon (isDigit_of_mem_natText hm) rfl

/-- The fields of a canonical line decode to its instruction. -/
theorem decodeFields_encodeFields (l : Nat) (i : Instr) :
    decodeFields l (tokens (' ' :: encodeFields i)) = .ok l i := by
  have hlit : ∀ t ∈ i.targets.map intText, isIntLiteral t = true := by
    intro t ht
    obtain ⟨z, -, rfl⟩ := List.mem_map.1 ht
    exact (intText_literal z).1
  have hval : (i.targets.map intText).map intValue = i.targets := by
    have hid : intValue ∘ intText = id := funext fun z => (intText_literal z).2
    rw [List.map_map, hid, List.map_id]
  rw [tokens_encodeFields]
  exact decodeFields_of_form (upper_mnemonic _) (upper_letter _) hlit hval

/-- Decoding a canonical line (R88) gives its label and instruction back. -/
theorem decodeLine_encodeLine {cfg : Config} (h : cfg.wf = true) (l : Nat) (i : Instr) :
    decodeLine cfg (encodeLine l i) = .ok l i := by
  obtain ⟨hlit, hval⟩ := natText_literal l
  have hclean : cleanLine cfg (encodeLine l i) = natText l ++ ':' :: ' ' :: encodeFields i :=
    cleanLine_encodeLine h l i
  rw [decodeLine_of_clean hclean (colon_not_mem_natText l), trim_natText, hlit, hval, Int.toNat_natCast,
    decodeFields_encodeFields]
  simp

/-- Settles O12: the label portion of a canonical line is its label and its fields are its instruction's
(`decodeLine_encodeLine`). -/
theorem encodedLinesDecodeBack : Obligations.EncodedLinesDecodeBack :=
  fun _ l i h => decodeLine_encodeLine h l i

end CanonicalForms

section LoadAnswers

variable {cfg : Config}

/-- Everything the load port answers on lines, said once: a refusal, no entry, every line stored, or a second
definition under `REJECT`. -/
theorem load_cases (cfg : Config) (lines : List Text) :
    ((¬ ∀ line ∈ lines, ∀ c ∈ line, isAscii c = true) ∧ load cfg (some lines) = .nonAsciiSource) ∨
    ((∀ line ∈ lines, ∀ c ∈ line, isAscii c = true) ∧
      (((∀ line ∈ lines, decodedEntry cfg line = none) ∧
          load cfg (some lines) = .emptyProgram (lineDiagnostics cfg lines)) ∨
        ((¬ ∀ line ∈ lines, decodedEntry cfg line = none) ∧
          (cfg.duplicatePolicy = .reject → (decodedLabels cfg lines).Nodup) ∧
          load cfg (some lines) =
            .loaded (storeLines cfg { entries := [] } lines) (lineDiagnostics cfg lines)) ∨
        (cfg.duplicatePolicy = .reject ∧ ¬ (decodedLabels cfg lines).Nodup ∧
          ∃ D, load cfg (some lines) = .duplicateLabel D))) := by
  by_cases ha : ∀ line ∈ lines, ∀ c ∈ line, isAscii c = true
  · refine .inr ⟨ha, ?_⟩
    rw [load_ascii ha]
    rcases loadLines_cases (cfg := cfg) (n := 1) (D := []) lines emptyMemory_canonical with
      ⟨hnodup, hload⟩ | ⟨hp, hdup, hload⟩
    · have hempty := storeLines_isEmpty (cfg := cfg) (M := { entries := [] }) lines rfl
      by_cases hnone : ∀ line ∈ lines, decodedEntry cfg line = none
      · exact .inl ⟨hnone, hload.trans (if_pos (hempty.2 hnone))⟩
      · exact .inr (.inl ⟨hnone, fun hp => (hnodup hp).1, hload.trans (if_neg (mt hempty.1 hnone))⟩)
    · exact .inr (.inr ⟨hp, fun hn => hdup ⟨hn, fun _ _ => rfl⟩, hload⟩)
  · exact .inl ⟨ha, load_not_ascii ha⟩

/-- ASCII lines of which one decodes are all stored, unless `REJECT` meets a label defined twice. -/
theorem load_of_defined_once {lines : List Text} (ha : ∀ line ∈ lines, ∀ c ∈ line, isAscii c = true)
    (hsome : ¬ ∀ line ∈ lines, decodedEntry cfg line = none)
    (hnodup : cfg.duplicatePolicy = .reject → (decodedLabels cfg lines).Nodup) :
    load cfg (some lines) =
      .loaded (storeLines cfg { entries := [] } lines) (lineDiagnostics cfg lines) := by
  rcases load_cases cfg lines with ⟨hn, -⟩ | ⟨-, ⟨hnone, -⟩ | ⟨-, -, hload⟩ | ⟨hp, hdup, -⟩⟩
  · exact absurd ha hn
  · exact absurd hnone hsome
  · exact hload
  · exact absurd (hnodup hp) hdup

end LoadAnswers

section SerializedPrograms

variable {cfg : Config}

theorem isAscii_of_mem_serialize (P : Program) : ∀ line ∈ serialize P, ∀ c ∈ line, isAscii c = true := by
  intro line hline c hc
  obtain ⟨e, -, rfl⟩ := List.mem_map.1 hline
  exact isAscii_of_mem_encodeLine hc

/-- The lines of a serialised program decode to its entries, in their order. -/
theorem filterMap_decodedEntry_serialize (h : cfg.wf = true) (P : Program) :
    (serialize P).filterMap (decodedEntry cfg) = P.entries := by
  have hentry : decodedEntry cfg ∘ (fun e : Nat × Instr => encodeLine e.1 e.2) = some := by
    funext e
    simp [decodedEntry, decodeLine_encodeLine h]
  rw [serialize, List.filterMap_map, hentry, List.filterMap_some]

theorem decodedLabels_serialize (h : cfg.wf = true) (P : Program) :
    decodedLabels cfg (serialize P) = P.entries.map Prod.fst := by
  rw [decodedLabels, ← List.map_filterMap, filterMap_decodedEntry_serialize h]

/-- Rising labels are no label twice. -/
theorem nodup_labels_of_canonical {P : Program} (h : P.Canonical) : (P.entries.map Prod.fst).Nodup :=
  List.Pairwise.map Prod.fst (fun _ _ => Nat.ne_of_lt) h

/-- Entries with rising labels, stored one after another, stand in their order. -/
theorem foldl_programInsert_of_rising (es : List (Nat × Instr)) {M : Program}
    (h : (M.entries ++ es).Pairwise (fun a b => a.1 < b.1)) :
    es.foldl (fun N e => programInsert N e.1 e.2) M = { entries := M.entries ++ es } := by
  induction es generalizing M with
  | nil => simp
  | cons e es ih =>
    have habove : ∀ e' ∈ M.entries, e'.1 < e.1 :=
      fun e' he' => (List.pairwise_append.1 h).2.2 e' he' e List.mem_cons_self
    have hinsert : (programInsert M e.1 e.2).entries = M.entries ++ [e] :=
      insertLabel_append e.2 habove
    rw [List.foldl_cons, ih (by simpa [hinsert] using h), hinsert, List.append_assoc]
    rfl

theorem storeLines_serialize (h : cfg.wf = true) {P : Program} (hP : P.Canonical) :
    storeLines cfg { entries := [] } (serialize P) = P := by
  rw [storeLines, filterMap_decodedEntry_serialize h]
  exact foldl_programInsert_of_rising P.entries (M := { entries := [] }) hP

/-- No line of a serialised program fails. -/
theorem lineDiagnostics_serialize (h : cfg.wf = true) (P : Program) :
    lineDiagnostics cfg (serialize P) = [] := by
  refine List.filterMap_eq_nil_iff.2 fun e he => ?_
  obtain ⟨e', -, hline⟩ := List.mem_map.1 (List.fst_mem_of_mem_zipIdx he)
  simp [lineDiagnostic, ← hline, decodeLine_encodeLine h]

/-- Parsing a serialised program gives the program back, without a diagnostic (R89). -/
theorem load_serialize (h : cfg.wf = true) {P : Program} (hP : P.WF) :
    load cfg (some (serialize P)) = .loaded P [] := by
  obtain ⟨hne, hcanon⟩ := hP
  have hnodup : (decodedLabels cfg (serialize P)).Nodup :=
    decodedLabels_serialize h P ▸ nodup_labels_of_canonical hcanon
  have hsome : ¬ ∀ line ∈ serialize P, decodedEntry cfg line = none := by
    rw [← List.filterMap_eq_nil_iff, filterMap_decodedEntry_serialize h, ← List.isEmpty_iff, hne]
    decide
  rw [load_of_defined_once (isAscii_of_mem_serialize P) hsome fun _ => hnodup, storeLines_serialize h hcanon,
    lineDiagnostics_serialize h]

/-- A line in lower case, without the space of the canonical form, loads to a program whose lines are others. -/
theorem load_of_noncanonical_line :
    load Config.default (some ["1:add a 2".toList]) = .loaded { entries := [(1, .add .A 2)] } [] ∧
      serialize { entries := [(1, .add .A 2)] } ≠ ["1:add a 2".toList] := by decide

/-- Settles O14: the entries of a program are stored in rising order, each at the end (`load_serialize`);
and a text that is not canonical is not what its program serialises to. -/
theorem serializedProgramsLoadBack : Obligations.SerializedProgramsLoadBack := by
  obtain ⟨hload, hne⟩ := load_of_noncanonical_line
  exact ⟨fun _ _ h hP => load_serialize h hP, Config.default, _, _, _, by decide, hload, hne⟩

end SerializedPrograms

section IntegerLiterals

theorem isDigit_iff_mem (c : Char) :
    isDigit c = true ↔ c ∈ ['0', '1', '2', '3', '4', '5', '6', '7', '8', '9'] := by
  simp only [isDigit_iff, List.mem_cons, List.not_mem_nil, or_false, char_eq_iff, Char.reduceToNat]
  omega

theorem isDigits_iff (s : Text) : isDigits s = true ↔ s ≠ [] ∧ ∀ c ∈ s, isDigit c = true := by
  simp [isDigits]

/-- A text is its sign, where it has one, and what stands after it. -/
theorem exists_sign_append_dropSign (s : Text) :
    ∃ sign ∈ ([[], ['+'], ['-']] : List Text), s = sign ++ dropSign s := by
  cases s with
  | nil => exact ⟨[], by simp, rfl⟩
  | cons c s =>
    by_cases hp : c = '+'
    · subst hp; exact ⟨['+'], by simp, rfl⟩
    · by_cases hm : c = '-'
      · subst hm; exact ⟨['-'], by simp, rfl⟩
      · exact ⟨[], by simp, (dropSign_cons s hp hm).symm⟩

/-- Digits begin with no sign. -/
theorem dropSign_of_isDigits {ds : Text} (h : isDigits ds = true) : dropSign ds = ds := by
  obtain ⟨hne, hall⟩ := (isDigits_iff ds).1 h
  obtain ⟨c, s, rfl⟩ := List.exists_cons_of_ne_nil hne
  exact dropSign_of_isDigit s (hall c List.mem_cons_self)

theorem dropSign_sign_append {sign ds : Text} (hsign : sign ∈ ([[], ['+'], ['-']] : List Text))
    (h : isDigits ds = true) : dropSign (sign ++ ds) = ds := by
  simp only [List.mem_cons, List.not_mem_nil, or_false] at hsign
  rcases hsign with rfl | rfl | rfl
  · exact dropSign_of_isDigits h
  · rfl
  · rfl

/-- The form of an integer literal (R62). -/
theorem isIntLiteral_iff (s : Text) : isIntLiteral s = true ↔
    ∃ sign ds : Text, s = sign ++ ds ∧ sign ∈ ([[], ['+'], ['-']] : List Text) ∧ isDigits ds = true := by
  constructor
  · intro h
    obtain ⟨sign, hsign, hs⟩ := exists_sign_append_dropSign s
    exact ⟨sign, dropSign s, hs, hsign, h⟩
  · rintro ⟨sign, ds, rfl, hsign, hds⟩
    rwa [isIntLiteral, dropSign_sign_append hsign hds]

theorem natValue_eq_ofDigits (ds : Text) : natValue ds = Nat.ofDigits 10 (ds.reverse.map digitValue) := by
  induction ds using List.reverseRecOn with
  | nil => rfl
  | append_singleton ds c ih =>
    rw [natValue_append, List.reverse_concat, List.map_cons, Nat.ofDigits_cons, ← ih]
    simp [add_comm]

theorem natValue_zero_cons (ds : Text) : natValue ('0' :: ds) = natValue ds := rfl

theorem intValue_of_isDigits {ds : Text} (h : isDigits ds = true) : intValue ds = natValue ds := by
  obtain ⟨hne, hall⟩ := (isDigits_iff ds).1 h
  obtain ⟨c, s, rfl⟩ := List.exists_cons_of_ne_nil hne
  exact intValue_of_isDigit s (hall c List.mem_cons_self)

theorem intValue_zero_cons {ds : Text} (h : isDigits ds = true) : intValue ('0' :: ds) = intValue ds := by
  rw [intValue_of_isDigit ds (by decide), natValue_zero_cons, intValue_of_isDigits h]

/-- Settles O1: `dropSign` leaves the digits, whose value is read from the left by `natValue`. -/
theorem integerLiteralSyntaxAndValue : Obligations.IntegerLiteralSyntaxAndValue := by
  refine ⟨fun s => ?_, rfl, fun ds hne hall => ?_⟩
  · simp only [isIntLiteral_iff, isDigits_iff, isDigit_iff_mem]
  · have hds : isDigits ds = true :=
      (isDigits_iff ds).2 ⟨hne, fun c hc => (isDigit_iff_mem c).2 (hall c hc)⟩
    have hvalue : intValue ds = natValue ds := intValue_of_isDigits hds
    exact ⟨by rw [hvalue, natValue_eq_ofDigits], hvalue.symm, congrArg Neg.neg hvalue.symm,
      intValue_zero_cons hds⟩

end IntegerLiterals

section Trim

theorem isWhitespace_iff_mem (c : Char) :
    isWhitespace c = true ↔ c.toNat ∈ [0x20, 0x09, 0x0A, 0x0B, 0x0C, 0x0D] := by
  simp only [isWhitespace_iff, List.mem_cons, List.not_mem_nil, or_false]
  omega

theorem exists_append_trimLeft (s : Text) :
    ∃ before, s = before ++ trimLeft s ∧ ∀ c ∈ before, isWhitespace c = true :=
  ⟨s.takeWhile isWhitespace, List.takeWhile_append_dropWhile.symm, fun _ => List.mem_takeWhile_imp⟩

theorem exists_trimRight_append (s : Text) :
    ∃ after, s = trimRight s ++ after ∧ ∀ c ∈ after, isWhitespace c = true := by
  obtain ⟨before, hs, hw⟩ := exists_append_trimLeft s.reverse
  exact ⟨before.reverse, by simpa [trimRight, trimLeft] using congrArg List.reverse hs, by simpa using hw⟩

/-- What `trim` removes is whitespace at the ends. -/
theorem exists_append_trim_append (s : Text) : ∃ before after : Text, s = before ++ trim s ++ after ∧
    (∀ c ∈ before, isWhitespace c = true) ∧ ∀ c ∈ after, isWhitespace c = true := by
  obtain ⟨before, hleft, hbefore⟩ := exists_append_trimLeft s
  obtain ⟨after, hright, hafter⟩ := exists_trimRight_append (trimLeft s)
  refine ⟨before, after, ?_, hbefore, hafter⟩
  rw [List.append_assoc, trim, ← hright]
  exact hleft

theorem head_trimLeft (s : Text) : ∀ c ∈ (trimLeft s).head?, isWhitespace c = false := by
  intro c hc
  have hhead := List.head?_dropWhile_not isWhitespace s
  rwa [show (s.dropWhile isWhitespace).head? = some c from hc] at hhead

theorem getLast_trimRight (s : Text) : ∀ c ∈ (trimRight s).getLast?, isWhitespace c = false := by
  simpa [trimRight, trimLeft] using head_trimLeft s.reverse

theorem head_trim (s : Text) : ∀ c ∈ (trim s).head?, isWhitespace c = false := by
  intro c hc
  obtain ⟨after, hright, -⟩ := exists_trimRight_append (trimLeft s)
  refine head_trimLeft s c ?_
  rw [hright]
  exact List.mem_head?_append_of_mem_head? hc

theorem getLast_trim (s : Text) : ∀ c ∈ (trim s).getLast?, isWhitespace c = false :=
  getLast_trimRight (trimLeft s)

/-- Settles O2: `trim` takes whitespace off both ends, and what is left begins and ends with none. -/
theorem whitespaceAndTrim : Obligations.WhitespaceAndTrim :=
  ⟨isWhitespace_iff_mem, fun s => ⟨exists_append_trim_append s, head_trim s, getLast_trim s⟩⟩

theorem trim_trim (s : Text) : trim (trim s) = trim s := trim_eq_self (head_trim s) (getLast_trim s)

theorem mem_of_mem_trim {c : Char} {s : Text} (h : c ∈ trim s) : c ∈ s := by
  obtain ⟨before, after, hs, -, -⟩ := exists_append_trim_append s
  rw [hs]
  simp [h]

theorem trim_eq_nil_iff (s : Text) : trim s = [] ↔ ∀ c ∈ s, isWhitespace c = true := by
  constructor
  · intro h c hc
    obtain ⟨before, after, hs, hbefore, hafter⟩ := exists_append_trim_append s
    rw [hs, h, List.append_nil] at hc
    exact (List.mem_append.1 hc).elim (hbefore c) (hafter c)
  · intro h
    rw [trim, trimLeft_of_whitespace h]
    rfl

theorem trim_whitespace_append {a : Text} (s : Text) (h : ∀ c ∈ a, isWhitespace c = true) :
    trim (a ++ s) = trim s := by
  rw [trim, trimLeft_append_of_whitespace s h, trim]

theorem trim_append_whitespace (s : Text) {b : Text} (h : ∀ c ∈ b, isWhitespace c = true) :
    trim (s ++ b) = trim s := by
  by_cases hs : trimLeft s = []
  · have hall : ∀ c ∈ s ++ b, isWhitespace c = true := by
      intro c hc
      exact (List.mem_append.1 hc).elim (List.dropWhile_eq_nil_iff.1 hs c) (h c)
    rw [(trim_eq_nil_iff _).2 hall, trim, hs]
    rfl
  · have hleft : trimLeft (s ++ b) = trimLeft s ++ b := by
      rw [trimLeft, List.dropWhile_append, if_neg (by simpa [trimLeft] using hs), trimLeft]
    rw [trim, hleft, trimRight_append_of_whitespace _ h, trim]

theorem trim_trimLeft (s : Text) : trim (trimLeft s) = trim s := by
  obtain ⟨before, hs, hbefore⟩ := exists_append_trimLeft s
  conv_rhs => rw [hs, trim_whitespace_append _ hbefore]

theorem trimLeft_append_cons {c : Char} (u v : Text) (hc : isWhitespace c = false) :
    trimLeft (u ++ c :: v) = trimLeft u ++ c :: v := by
  rw [trimLeft, List.dropWhile_append]
  split
  · next hu => simp [trimLeft, List.isEmpty_iff.1 hu, hc]
  · rfl

theorem trimRight_append_cons {c : Char} (u v : Text) (hc : isWhitespace c = false) :
    trimRight (u ++ c :: v) = u ++ c :: trimRight v := by
  have hrev := trimLeft_append_cons v.reverse u.reverse hc
  simpa [trimRight, trimLeft] using congrArg List.reverse hrev

/-- Trimming stops at a character that is no whitespace. -/
theorem trim_append_cons {c : Char} (u v : Text) (hc : isWhitespace c = false) :
    trim (u ++ c :: v) = trimLeft u ++ c :: trimRight v := by
  rw [trim, trimLeft_append_cons u v hc, trimRight_append_cons _ v hc]

end Trim

section TokenPieces

theorem tokens_of_whitespace {s : Text} (h : ∀ c ∈ s, isWhitespace c = true) : tokens s = [] := by
  simpa [tokens] using tokens_whitespace_append [] h

theorem tokens_whitespace_cons {c : Char} (s : Text) (h : isWhitespace c = true) :
    tokens (c :: s) = tokens s := by
  rw [tokens, if_pos h]

theorem flatten_extendToken (c : Char) (ts : List Text) : (extendToken c ts).flatten = c :: ts.flatten := by
  cases ts <;> rfl

/-- The tokens of a text are its characters that are no whitespace. -/
theorem flatten_tokens (s : Text) : (tokens s).flatten = s.filter (fun c => !isWhitespace c) := by
  induction s with
  | nil => rfl
  | cons c s ih =>
    by_cases hc : isWhitespace c = true
    · rw [tokens_whitespace_cons s hc, ih]
      simp [hc]
    · rw [tokens, if_neg hc, List.filter_cons_of_pos (by simpa using hc), ← ih]
      split
      · rfl
      · exact flatten_extendToken c (tokens s)

/-- Settles O3: whitespace before a token adds nothing, and whitespace or the end of the text ends it
(`tokens_append`). -/
theorem tokensAreThePiecesBetweenWhitespace : Obligations.TokensAreThePiecesBetweenWhitespace := by
  refine ⟨fun s => tokens_of_whitespace, fun before t c rest hbefore hne ht hc => ⟨?_, ?_⟩, flatten_tokens⟩
  · rw [tokens_whitespace_append _ hbefore]
    simpa [tokens] using tokens_append (s := []) hne ht rfl
  · rw [List.append_assoc, tokens_whitespace_append _ hbefore, tokens_append (s := c :: rest) hne ht hc,
      tokens_whitespace_cons rest hc]

end TokenPieces

section Comments

variable {cfg : Config}

/-- A comment character is no whitespace (R11). -/
theorem isWhitespace_commentChar (h : cfg.wf = true) : isWhitespace cfg.commentChar = false := by
  simp only [Config.wf, commentCharOk, Bool.and_eq_true, Bool.not_eq_true'] at h
  obtain ⟨-, ⟨⟨⟨⟨-, hspace⟩, -⟩, -⟩, -⟩, -⟩ := h
  exact hspace

/-- Step 1 of the decoder only trims a text without a comment (R65). -/
theorem cleanLine_of_no_comment {u : Text} (h : cfg.commentChar ∉ u) : cleanLine cfg u = trim u := by
  rw [cleanLine, cutAt_of_not_mem fun hm => h (mem_of_mem_trim hm), trim_trim]

/-- Step 1 of the decoder cuts a comment off (R65). -/
theorem cleanLine_append_comment (hcfg : cfg.wf = true) {u : Text} (v : Text) (h : cfg.commentChar ∉ u) :
    cleanLine cfg (u ++ cfg.commentChar :: v) = trim u := by
  have hleft : cfg.commentChar ∉ trimLeft u := fun hm => h ((List.dropWhile_suffix _).subset hm)
  rw [cleanLine, trim_append_cons u v (isWhitespace_commentChar hcfg), cutAt_append _ hleft, trim_trimLeft]

/-- The decoder reads a line by its clean form only. -/
theorem decodeLine_congr {raw raw' : Text} (h : cleanLine cfg raw = cleanLine cfg raw') :
    decodeLine cfg raw = decodeLine cfg raw' := by
  simp only [decodeLine, h]

/-- Settles O5: trimming removes the whitespace around a line first. -/
theorem surroundingWhitespaceIsIgnored : Obligations.SurroundingWhitespaceIsIgnored := by
  intro cfg before raw after _ hbefore hafter
  refine decodeLine_congr ?_
  rw [cleanLine, List.append_assoc, trim_whitespace_append _ hbefore, trim_append_whitespace _ hafter,
    cleanLine]

end Comments

section Maps

/-- Settles O7: each map finds exactly the mnemonics, and the letters, of its constructors. -/
theorem opcodeAndRegisterMaps : Obligations.OpcodeAndRegisterMaps := by
  refine ⟨fun s op => ?_, fun s r => ?_⟩
  · rw [opOfMnemonic_eq_some]
    cases op <;> simp [Operation.mnemonic]
  · rw [regOfName_eq_some]
    cases r <;> simp [Reg.letter]

end Maps

section Fields

variable {l : Nat} {m g : Text} {rest ts : List Text} {op : Operation} {r : Reg}

/-! Steps 3 and 4 of the decoder (R68 to R72), one equation for each answer. -/

theorem decodeFields_of_unknownOperation (hm : opOfMnemonic (upper m) = none) :
    decodeFields l (m :: rest) = .err .unknownOperation (some l) := by
  simp [decodeFields, hm]

theorem decodeFields_of_no_register (hm : opOfMnemonic (upper m) = some op) :
    decodeFields l [m] = .err (.malformedLine .missingField) (some l) := by
  simp [decodeFields, hm]

theorem decodeFields_of_unknownRegister (hm : opOfMnemonic (upper m) = some op)
    (hg : regOfName (upper g) = none) :
    decodeFields l (m :: g :: ts) = .err .unknownRegister (some l) := by
  simp [decodeFields, hm, hg]

theorem decodeFields_of_arity (hm : opOfMnemonic (upper m) = some op)
    (hg : regOfName (upper g) = some r) (hlen : ts.length ≠ op.arity) :
    decodeFields l (m :: g :: ts) = .err .arityMismatch (some l) := by
  simp [decodeFields, hm, hg, hlen]

theorem decodeFields_of_badTarget (hm : opOfMnemonic (upper m) = some op)
    (hg : regOfName (upper g) = some r) (hlen : ts.length = op.arity)
    (hts : ∃ t ∈ ts, isIntLiteral t = false) :
    decodeFields l (m :: g :: ts) = .err (.malformedLine .badTarget) (some l) := by
  simp [decodeFields, hm, hg, hlen, hts]

/-- Fields without a failure decode to the instruction they name (R75). -/
theorem decodeFields_of_no_failure (l : Nat) (hm : opOfMnemonic (upper m) = some op)
    (hg : regOfName (upper g) = some r) (hlen : ts.length = op.arity)
    (hts : ∀ t ∈ ts, isIntLiteral t = true) :
    ∃ i : Instr, decodeFields l (m :: g :: ts) = .ok l i ∧ i.operation = op ∧ i.register = r ∧
      i.targets = ts.map intValue := by
  obtain ⟨i, hi⟩ := exists_instrOf (op := op) r (ts := ts.map intValue) (by rwa [List.length_map])
  obtain ⟨rfl, rfl, hv⟩ := instrOf_eq_some.1 hi
  exact ⟨i, decodeFields_of_form (opOfMnemonic_eq_some.1 hm) (regOfName_eq_some.1 hg) hts hv, rfl, rfl, hv.symm⟩

/-- What the fields of a line at label `l` can decode to. -/
theorem decodeFields_cases (l : Nat) (tk : List Text) : (∃ k, decodeFields l tk = .err k (some l)) ∨
    ∃ m g ts i, tk = m :: g :: ts ∧ upper m = i.operation.mnemonic ∧ upper g = [i.register.letter] ∧
      (∀ t ∈ ts, isIntLiteral t = true) ∧ ts.map intValue = i.targets ∧ decodeFields l tk = .ok l i := by
  rcases tk with _ | ⟨m, rest⟩
  · exact .inl ⟨_, rfl⟩
  cases hm : opOfMnemonic (upper m) with
  | none => exact .inl ⟨_, decodeFields_of_unknownOperation hm⟩
  | some op =>
    rcases rest with _ | ⟨g, ts⟩
    · exact .inl ⟨_, decodeFields_of_no_register hm⟩
    cases hg : regOfName (upper g) with
    | none => exact .inl ⟨_, decodeFields_of_unknownRegister hm hg⟩
    | some r =>
      by_cases hlen : ts.length = op.arity
      · by_cases hts : ∃ t ∈ ts, isIntLiteral t = false
        · exact .inl ⟨_, decodeFields_of_badTarget hm hg hlen hts⟩
        · have hall : ∀ t ∈ ts, isIntLiteral t = true := by simpa using hts
          obtain ⟨i, hi, rfl, rfl, hv⟩ := decodeFields_of_no_failure l hm hg hlen hall
          exact .inr ⟨m, g, ts, i, rfl, opOfMnemonic_eq_some.1 hm, regOfName_eq_some.1 hg, hall, hv.symm, hi⟩
      · exact .inl ⟨_, decodeFields_of_arity hm hg hlen⟩

end Fields

section DecisionTree

variable {cfg : Config} {raw lp ip : Text} {l : Nat} {i : Instr}

/-! Steps 1 and 2 of the decoder (R65 to R67), one equation for each answer. -/

theorem decodeLine_of_blank (h : cleanLine cfg raw = []) : decodeLine cfg raw = .skip := by
  simp [decodeLine, h]

theorem decodeLine_of_no_separator (hne : cleanLine cfg raw ≠ []) (h : ':' ∉ cleanLine cfg raw) :
    decodeLine cfg raw = .err (.malformedLine .noSeparator) none := by
  simp [decodeLine, hne, splitFirst_eq_none.2 h]

theorem decodeLine_of_badLabel (h : cleanLine cfg raw = lp ++ ':' :: ip) (hn : ':' ∉ lp)
    (hlit : isIntLiteral (trim lp) = false) :
    decodeLine cfg raw = .err (.malformedLine .badLabel) none := by
  simp [decodeLine_of_clean h hn, hlit]

theorem decodeLine_of_negativeLabel (h : cleanLine cfg raw = lp ++ ':' :: ip) (hn : ':' ∉ lp)
    (hlit : isIntLiteral (trim lp) = true) (hneg : intValue (trim lp) < 0) :
    decodeLine cfg raw = .err (.malformedLine .negativeLabel) none := by
  simp [decodeLine_of_clean h hn, hlit, hneg]

/-- A line whose label is accepted decodes as its fields do. -/
theorem decodeLine_of_label (h : cleanLine cfg raw = lp ++ ':' :: ip) (hn : ':' ∉ lp)
    (hlit : isIntLiteral (trim lp) = true) (hval : intValue (trim lp) = l) :
    decodeLine cfg raw = decodeFields l (tokens ip) := by
  simp [decodeLine_of_clean h hn, hlit, hval]

/-- Where a line stands in the decision tree of R74 after step 2. -/
theorem decodeLine_cases (cfg : Config) (raw : Text) :
    (cleanLine cfg raw = [] ∧ decodeLine cfg raw = .skip) ∨
    (cleanLine cfg raw ≠ [] ∧ ∃ k, decodeLine cfg raw = .err k none) ∨
    ∃ (lp ip : Text) (l : Nat), cleanLine cfg raw = lp ++ ':' :: ip ∧ ':' ∉ lp ∧
      isIntLiteral (trim lp) = true ∧ intValue (trim lp) = l ∧
      decodeLine cfg raw = decodeFields l (tokens ip) := by
  by_cases hblank : cleanLine cfg raw = []
  · exact .inl ⟨hblank, decodeLine_of_blank hblank⟩
  by_cases hsep : ':' ∈ cleanLine cfg raw
  · obtain ⟨lp, ip, hclean, hn⟩ := List.eq_append_cons_of_mem hsep
    cases hlit : isIntLiteral (trim lp) with
    | false => exact .inr (.inl ⟨hblank, _, decodeLine_of_badLabel hclean hn hlit⟩)
    | true =>
      by_cases hneg : intValue (trim lp) < 0
      · exact .inr (.inl ⟨hblank, _, decodeLine_of_negativeLabel hclean hn hlit hneg⟩)
      · obtain ⟨l, hl⟩ := Int.eq_ofNat_of_zero_le (Int.not_lt.1 hneg)
        exact .inr (.inr ⟨lp, ip, l, hclean, hn, hlit, hl, decodeLine_of_label hclean hn hlit hl⟩)
  · exact .inr (.inl ⟨hblank, _, decodeLine_of_no_separator hblank hsep⟩)

/-- Exactly the lines that are blank after step 1 are skipped (R65). -/
theorem decodeLine_eq_skip_iff : decodeLine cfg raw = .skip ↔ cleanLine cfg raw = [] := by
  refine ⟨fun h => ?_, decodeLine_of_blank⟩
  rcases decodeLine_cases cfg raw with ⟨hblank, -⟩ | ⟨-, k, hk⟩ | ⟨lp, ip, l, -, -, -, -, hd⟩
  · exact hblank
  · cases hk.symm.trans h
  · rcases decodeFields_cases l (tokens ip) with ⟨k, hk⟩ | ⟨m, g, ts, i, -, -, -, -, -, hok⟩
    · cases hk.symm.trans (hd.symm.trans h)
    · cases hok.symm.trans (hd.symm.trans h)

/-- Settles O4: step 1 cuts a comment off, and what it leaves blank is what is skipped. -/
theorem commentsAndBlankLinesAreIgnored : Obligations.CommentsAndBlankLinesAreIgnored := by
  refine fun cfg hcfg => ⟨fun u v hu => decodeLine_congr ?_, fun u hu => ?_, fun n u rest M D hskip => ?_⟩
  · rw [cleanLine_append_comment hcfg v hu, cleanLine_of_no_comment hu]
  · rw [decodeLine_eq_skip_iff, cleanLine_of_no_comment hu, trim_eq_nil_iff]
  · rw [loadLines, hskip]

/-- Settles O8: each clause is the equation of its place in the decision tree. -/
theorem firstFailureInOrderIsReported : Obligations.FirstFailureInOrderIsReported := by
  refine fun cfg raw => ⟨decodeLine_of_blank, decodeLine_of_no_separator, fun lp ip hclean hn =>
    ⟨decodeLine_of_badLabel hclean hn, decodeLine_of_negativeLabel hclean hn, fun l hlit hval => ?_⟩⟩
  rw [decodeLine_of_label hclean hn hlit hval]
  refine ⟨fun h => by rw [h]; rfl, fun m rest htk => ?_⟩
  rw [htk]
  refine ⟨decodeFields_of_unknownOperation, fun op hm => ⟨?_, ?_⟩⟩
  · rintro rfl
    exact decodeFields_of_no_register hm
  · rintro g ts rfl
    refine ⟨decodeFields_of_unknownRegister hm, fun r hg =>
      ⟨decodeFields_of_arity hm hg, decodeFields_of_badTarget hm hg, fun hlen hts => ?_⟩⟩
    obtain ⟨i, hi, hop, hr, hv⟩ := decodeFields_of_no_failure l hm hg hlen hts
    exact ⟨i, hi, by rw [Instr.record, hop, hr, hv]⟩

/-- Settles O9: a line that decodes has been through the whole decision tree. -/
theorem decodedLinesHaveTheirForm : Obligations.DecodedLinesHaveTheirForm := by
  refine fun cfg raw l i => ⟨fun h => ?_, ?_⟩
  · rcases decodeLine_cases cfg raw with ⟨-, hskip⟩ | ⟨-, k, hk⟩ | ⟨lp, ip, l', hclean, hn, hlit, hval, hd⟩
    · cases hskip.symm.trans h
    · cases hk.symm.trans h
    · rw [hd] at h
      rcases decodeFields_cases l' (tokens ip) with ⟨k, hk⟩ | ⟨m, g, ts, j, htk, hm, hg, hts, hv, hok⟩
      · cases hk.symm.trans h
      · cases hok.symm.trans h
        exact ⟨lp, ip, m, g, ts, hclean, hn, hlit, hval, htk, hm, hg, hts, hv⟩
  · rintro ⟨lp, ip, m, g, ts, hclean, hn, hlit, hval, htk, hm, hg, hts, hv⟩
    rw [decodeLine_of_label hclean hn hlit hval, htk]
    exact decodeFields_of_form hm hg hts hv

end DecisionTree

section NumberForm

theorem wordOfLine_cons (c : Char) (s : Text) : wordOfLine (c :: s) = c.toNat + 256 * wordOfLine s := rfl

/-- The line that a number holds is the one the number was made of (log 4). -/
theorem lineOfWord_wordOfLine {s : Text} (h : ∀ c ∈ s, c.toNat < 256) :
    lineOfWord (bitsOfLine s) (wordOfLine s) = s := by
  induction s with
  | nil => rfl
  | cons c s ih =>
    have hc : c.toNat < 256 := h c List.mem_cons_self
    have hlow : (wordOfLine (c :: s) >>> (8 * 0)) % 256 = c.toNat := by
      rw [wordOfLine_cons]
      simp [Nat.mod_eq_of_lt hc]
    have hhigh : ∀ k, wordOfLine (c :: s) >>> (8 * (k + 1)) = wordOfLine s >>> (8 * k) := by
      intro k
      have h8 : wordOfLine (c :: s) >>> 8 = wordOfLine s := by
        rw [wordOfLine_cons, Nat.shiftRight_eq_div_pow]
        omega
      rw [Nat.mul_succ, Nat.add_comm, Nat.shiftRight_add, h8]
    have htail := ih fun d hd => h d (List.mem_cons_of_mem c hd)
    simp only [lineOfWord, bitsOfLine, Nat.mul_div_cancel_left _ (show 0 < 8 by decide)] at htail ⊢
    rw [List.length_cons, List.range_succ_eq_map, List.map_cons, hlow, Char.ofNat_toNat, List.map_map]
    refine congrArg (c :: ·) ?_
    simpa only [Function.comp_def, Nat.succ_eq_add_one, hhigh] using htail

/-- The number form of an ASCII line decodes as the line does. -/
theorem decodeTableWord_of_ascii {s : Text} (h : ∀ c ∈ s, isAscii c = true) {l : Nat} {i : Instr}
    (hd : decodeLine Config.default s = .ok l i) :
    decodeTableWord (bitsOfLine s) (wordOfLine s) = some i := by
  have hbytes : ∀ c ∈ s, c.toNat < 256 := by
    intro c hc
    have hle : c.toNat ≤ 0x7F := by simpa [isAscii] using h c hc
    omega
  have hall : s.all isAscii = true := List.all_eq_true.2 h
  rw [decodeTableWord, lineOfWord_wordOfLine hbytes, if_pos hall, hd]

/-- Settles O13: a canonical line is ASCII, so its number form holds all of it. -/
theorem encodedWordsDecodeBack : Obligations.EncodedWordsDecodeBack :=
  fun l i => decodeTableWord_of_ascii (fun _ => isAscii_of_mem_encodeLine)
    (decodeLine_encodeLine (l := l) (i := i) (by decide))

/-- Settles O11: four closed lines, evaluated. -/
theorem writtenWordsDecode : Obligations.WrittenWordsDecode :=
  ⟨by decide, by decide, by decide, by decide⟩

end NumberForm

section Sources

theorem not_ascii_iff (lines : List Text) : (¬ ∀ line ∈ lines, ∀ c ∈ line, isAscii c = true) ↔
    ∃ line ∈ lines, ∃ c ∈ line, 0x7F < c.toNat := by
  simp [isAscii]

/-- Settles O15: only the first answer of the load port is the refusal (`load_cases`). -/
theorem nonAsciiSourcesAreRefused : Obligations.NonAsciiSourcesAreRefused := by
  intro cfg lines
  rw [← not_ascii_iff]
  rcases load_cases cfg lines with ⟨hn, hload⟩ | ⟨ha, ⟨-, hload⟩ | ⟨-, -, hload⟩ | ⟨-, -, D, hload⟩⟩
  · simp only [hload, hn, not_false_eq_true]
  all_goals exact iff_of_false (by simp [hload]) (not_not_intro ha)

theorem load_some_ne_missingSource (cfg : Config) (lines : List Text) :
    load cfg (some lines) ≠ .missingSource := by
  rcases load_cases cfg lines with ⟨-, hload⟩ | ⟨-, ⟨-, hload⟩ | ⟨-, -, hload⟩ | ⟨-, -, D, hload⟩⟩
  all_goals simp [hload]

theorem splitLines_newline_cons (s : Text) : splitLines ('\n' :: s) = [] :: splitLines s := rfl

/-- A character that is no LF stands in the line that begins after it. -/
theorem splitLines_cons {c : Char} {s line : Text} {rest : List Text} (hc : c ≠ '\n')
    (h : splitLines s = line :: rest) : splitLines (c :: s) = (c :: line) :: rest := by
  have hcode : c.toNat ≠ 0x0A := fun hn => hc ((char_eq_iff c '\n').2 hn)
  simp [splitLines, hcode, h]

theorem splitLines_singleton {c : Char} (hc : c ≠ '\n') : splitLines [c] = [[c]] := by
  have hcode : c.toNat ≠ 0x0A := fun hn => hc ((char_eq_iff c '\n').2 hn)
  simp [splitLines, hcode]

/-- A line ends at LF (R59). -/
theorem splitLines_append_newline {line : Text} (rest : Text) (h : '\n' ∉ line) :
    splitLines (line ++ '\n' :: rest) = line :: splitLines rest := by
  induction line with
  | nil => exact splitLines_newline_cons rest
  | cons c line ih =>
    obtain ⟨hc, hline⟩ := List.ne_and_not_mem_of_not_mem_cons h
    exact splitLines_cons (Ne.symm hc) (ih hline)

/-- Text without LF is one line where it is not empty (log 6). -/
theorem splitLines_of_no_newline {line : Text} (h : '\n' ∉ line) (hne : line ≠ []) :
    splitLines line = [line] := by
  induction line with
  | nil => exact absurd rfl hne
  | cons c line ih =>
    obtain ⟨hc, hline⟩ := List.ne_and_not_mem_of_not_mem_cons h
    cases line with
    | nil => exact splitLines_singleton (Ne.symm hc)
    | cons d line => exact splitLines_cons (Ne.symm hc) (ih hline (by simp))

/-- Settles O16: by induction on the line, and since every line source is answered otherwise. -/
theorem streamsAreCutAtLineFeeds : Obligations.StreamsAreCutAtLineFeeds := by
  refine ⟨fun _ rest => splitLines_append_newline rest, fun _ => splitLines_of_no_newline,
    fun cfg source => ?_⟩
  cases source with
  | none => exact iff_of_true rfl rfl
  | some s => exact iff_of_false (load_some_ne_missingSource cfg _) (by simp)

end Sources

section Policies

variable {cfg : Config}

theorem decodedEntry_eq_some {raw : Text} {l : Nat} {i : Instr} :
    decodedEntry cfg raw = some (l, i) ↔ decodeLine cfg raw = .ok l i := by
  unfold decodedEntry
  cases decodeLine cfg raw <;> simp

theorem decodedEntry_of_err {raw : Text} {k : DiagKind} {lab : Option Nat}
    (h : decodeLine cfg raw = .err k lab) : decodedEntry cfg raw = none := by
  simp [decodedEntry, h]

theorem decodedLabels_eq_map (cfg : Config) (lines : List Text) :
    decodedLabels cfg lines = (lines.filterMap (decodedEntry cfg)).map Prod.fst :=
  List.map_filterMap.symm

/-- Lines of which none decodes define no label. -/
theorem decodedLabels_eq_nil {lines : List Text} (h : ∀ line ∈ lines, decodedEntry cfg line = none) :
    decodedLabels cfg lines = [] := by
  rw [decodedLabels_eq_map, List.filterMap_eq_nil_iff.2 h, List.map_nil]

/-- Settles O17: of the answers to ASCII lines, `EmptyProgram` is the one where no line decodes. -/
theorem noDecodedLineIsEmptyProgram : Obligations.NoDecodedLineIsEmptyProgram := by
  refine fun cfg lines ha => ⟨fun D => ?_, rfl⟩
  rcases load_cases cfg lines with ⟨hn, -⟩ | ⟨-, ⟨hnone, hload⟩ | ⟨hsome, -, hload⟩ | ⟨-, hdup, D', hload⟩⟩
  · exact absurd ha hn
  · rw [hload, LoadResult.emptyProgram.injEq]
    exact ⟨fun h => ⟨hnone, h.symm⟩, fun h => h.2.symm⟩
  · exact iff_of_false (by simp [hload]) fun h => hsome h.1
  · refine iff_of_false (by simp [hload]) fun ⟨hnone, _⟩ => hdup ?_
    rw [decodedLabels_eq_nil hnone]
    exact List.nodup_nil

/-- Settles O18: what the load port answers (`load_cases`), and what is stored under a label by some lines
(`lookup_storeLines`). -/
theorem lastDefinitionOfALabelWins : Obligations.LastDefinitionOfALabelWins := by
  refine fun cfg lines => ⟨fun ha ⟨line, hline, l, i, hd⟩ hnodup => ?_, fun D h => ?_, fun P D h => ?_⟩
  · have hsome : ¬ ∀ line ∈ lines, decodedEntry cfg line = none := by
      intro hnone
      cases (decodedEntry_eq_some.2 hd).symm.trans (hnone line hline)
    exact ⟨_, _, load_of_defined_once ha hsome hnodup⟩
  · rcases load_cases cfg lines with ⟨-, hload⟩ | ⟨-, ⟨-, hload⟩ | ⟨-, -, hload⟩ | ⟨hp, hdup, -⟩⟩
    case inr.inr.inr => exact ⟨hp, hdup⟩
    all_goals cases hload.symm.trans h
  · obtain ⟨rfl, -, -, hnodup⟩ := load_eq_loaded h
    refine ⟨fun l => ?_, hnodup⟩
    rw [fetch_ofNat, lookup_storeLines emptyMemory_canonical]
    simp [lookupLabel]

/-- Settles O19: the lines before are all stored, and the next defines a stored label. -/
theorem secondDefinitionIsRejected : Obligations.SecondDefinitionIsRejected := by
  intro cfg before after raw l i hp ha hnodup hl hd
  have hstored : (lookupLabel (storeLines cfg { entries := [] } before).entries l).isSome = true :=
    (isSome_lookup_storeLines emptyMemory_canonical before l).2 (.inl hl)
  rw [load_ascii ha, loadLines_append (raw :: after) emptyMemory_canonical fun _ => ⟨hnodup, fun _ _ => rfl⟩,
    loadLines_duplicate after _ _ hp hd hstored, Nat.add_comm, List.nil_append, lineDiagnostics]

theorem loadLines_of_err {raw : Text} {k : DiagKind} {lab : Option Nat} (h : decodeLine cfg raw = .err k lab)
    (n : Nat) (rest : List Text) (M : Program) (D : List Diagnostic) :
    loadLines cfg n (raw :: rest) M D = loadLines cfg (n + 1) rest M
      (D ++ [{ kind := k, lineNumber := n, label := lab, text := raw }]) := by
  rw [loadLines, h]

/-- The program that a load produces, where it produces one. -/
theorem loadedProgram_load_eq_some_iff {lines : List Text} {P : Program} :
    loadedProgram (load cfg (some lines)) = some P ↔
      (∀ line ∈ lines, ∀ c ∈ line, isAscii c = true) ∧
      lines.filterMap (decodedEntry cfg) ≠ [] ∧
      (cfg.duplicatePolicy = .reject → (decodedLabels cfg lines).Nodup) ∧
      storeLines cfg { entries := [] } lines = P := by
  rw [Ne, List.filterMap_eq_nil_iff]
  constructor
  · intro h
    rcases load_cases cfg lines with
      ⟨-, hload⟩ | ⟨ha, ⟨-, hload⟩ | ⟨hsome, hnodup, hload⟩ | ⟨-, -, D, hload⟩⟩ <;> rw [hload] at h
    case inr.inr.inl => exact ⟨ha, hsome, hnodup, Option.some.inj h⟩
    all_goals cases h
  · rintro ⟨ha, hsome, hnodup, rfl⟩
    rw [load_of_defined_once ha hsome hnodup]
    rfl

/-- The program of a load depends on the records of its lines only, as long as they are ASCII. -/
theorem loadedProgram_load_congr {lines lines' : List Text}
    (ha : (∀ line ∈ lines, ∀ c ∈ line, isAscii c = true) ↔ ∀ line ∈ lines', ∀ c ∈ line, isAscii c = true)
    (he : lines.filterMap (decodedEntry cfg) = lines'.filterMap (decodedEntry cfg)) :
    loadedProgram (load cfg (some lines)) = loadedProgram (load cfg (some lines')) := by
  refine Option.ext fun P => ?_
  simp only [loadedProgram_load_eq_some_iff, decodedLabels_eq_map, storeLines, ha, he]

/-- Settles O20: a failing line has no record, and the loader records its failure and goes on. -/
theorem failedLinesChangeNoEntry : Obligations.FailedLinesChangeNoEntry := by
  refine fun cfg before after raw k lab hraw h => ⟨loadedProgram_load_congr ?_ ?_, loadLines_of_err h⟩
  · simp only [List.forall_mem_append, List.forall_mem_cons]
    exact and_congr_right fun _ => and_iff_right hraw
  · rw [List.filterMap_append, List.filterMap_cons_none (decodedEntry_of_err h), List.filterMap_append]

/-- Settles O21: a load that succeeds reports the failing lines of the source (`load_eq_loaded`). -/
theorem diagnosticsAreTheFailingLinesInOrder : Obligations.DiagnosticsAreTheFailingLinesInOrder := by
  intro cfg lines P D h
  obtain ⟨-, -, hD, -⟩ := load_eq_loaded h
  exact hD

end Policies

section StartLabel

/-- A label has a record exactly when one is listed under it. -/
theorem isSome_lookupLabel_iff {es : List (Nat × Instr)} {l : Nat} :
    (lookupLabel es l).isSome = true ↔ ∃ e ∈ es, e.1 = l := by
  induction es with
  | nil => simp [lookupLabel]
  | cons e es ih =>
    obtain ⟨k, i⟩ := e
    by_cases hk : k = l <;> simp [lookupLabel, hk, ih]

/-- The least of some labels is one of them. -/
theorem foldl_min_mem (es : List (Nat × Instr)) (m : Nat) :
    es.foldl (fun m e => min m e.1) m = m ∨ ∃ e ∈ es, e.1 = es.foldl (fun m e => min m e.1) m := by
  induction es generalizing m with
  | nil => exact .inl rfl
  | cons e es ih =>
    rw [List.foldl_cons]
    rcases ih (min m e.1) with hmin | ⟨e', he', hmin⟩
    · rw [hmin]
      rcases Nat.le_total m e.1 with hle | hle
      · exact .inl (Nat.min_eq_left hle)
      · exact .inr ⟨e, List.mem_cons_self, (Nat.min_eq_right hle).symm⟩
    · exact .inr ⟨e', List.mem_cons_of_mem e he', hmin⟩

/-- Settles O23: the start label is one of the labels (`foldl_min_mem`) and none is less (`foldl_min_le`). -/
theorem startLabelIsTheLeastKey : Obligations.StartLabelIsTheLeastKey := by
  rintro ⟨es⟩ hne
  obtain ⟨e, rest, rfl⟩ := List.exists_cons_of_ne_nil hne
  obtain ⟨hfirst, hrest⟩ := foldl_min_le rest e.1
  refine ⟨_, rfl, isSome_lookupLabel_iff.2 ?_, fun t ht => ?_⟩
  · rcases foldl_min_mem rest e.1 with hmin | ⟨e', he', hmin⟩
    · exact ⟨e, List.mem_cons_self, hmin.symm⟩
    · exact ⟨e', List.mem_cons_of_mem e he', hmin⟩
  · obtain ⟨i, hi⟩ := Option.isSome_iff_exists.1 ht
    obtain ⟨l, rfl, hl⟩ := exists_label_of_fetch hi
    refine Int.ofNat_le.2 ?_
    rcases List.mem_cons.1 (mem_of_lookupLabel hl) with rfl | hmem
    · exact hfirst
    · exact hrest _ hmem

end StartLabel

section OneLine

/-- One ASCII line that decodes loads as the program of its one record. -/
theorem load_singleton {cfg : Config} {line : Text} {l : Nat} {i : Instr}
    (ha : ∀ c ∈ line, isAscii c = true) (hd : decodeLine cfg line = .ok l i) :
    load cfg (some [line]) = .loaded { entries := [(l, i)] } [] := by
  rw [load_ascii (by simpa using ha)]
  simp [loadLines, hd, lookupLabel, programInsert, insertLabel]

/-- Settles O30: the program of the one line has its record alone, under the start label. -/
theorem stepRunsTheLoadedLine : Obligations.StepRunsTheLoadedLine := by
  intro s nbits w l i ha hd
  have hload := load_singleton ha hd
  have hprog : (s.withFetchWord nbits w).prog = some { entries := [(l, i)] } := by
    simp [State.withFetchWord, State.withLine, hload, loadedProgram]
  have hpc : (s.withFetchWord nbits w).pc = some (l : Int) := by
    simp [State.withFetchWord, State.withLine, hload, loadedProgram, startLabel]
  exact ⟨hpc, step_of_fetch rfl hprog hpc (by simp [lookupLabel])⟩

end OneLine

end Sys2Proof.Machine
end

section
/-! PROOFS. The execution as the execution chapter describes it (R90 to R103): one step, how a run ends, the
initial registers, the start of a run, and whole runs. -/

namespace Sys2Proof.Machine

section StepsAndEnds

/-- Settles O29: `emitStep` is step a of R96, and `step_of_fetch` the other two. -/
theorem stepRunsTheFetchedInstruction : Obligations.StepRunsTheFetchedInstruction :=
  fun _ _ _ _ hr hP ht hi => step_of_fetch hr hP ht hi

/-- Settles O33: an instruction and the abort check leave the trace as the `STEP` snapshot left it, and the
halt emits the other snapshot. -/
theorem stepEmitsOneSnapshot : Obligations.StepEmitsOneSnapshot := by
  intro s s' h
  obtain ⟨-, P, t, hP, ht, ⟨i, u, hi, hx, rfl⟩ | ⟨hi, rfl⟩⟩ := step_cases h
  · obtain ⟨-, -, -, htrace, -⟩ := exec_keeps hx
    exact ⟨P, t, hP, ht, .inl ⟨i, hi, u.abortCheck_trace.trans htrace⟩⟩
  · exact ⟨P, t, hP, ht, .inr ⟨isDefined_eq_false.2 hi, rfl⟩⟩

/-- Settles O34: by the equation of a step at an undefined label. -/
theorem undefinedPcHalts : Obligations.UndefinedPcHalts := by
  intro s P t hr hP ht hdef
  exact ⟨s.halt t, step_of_undefined hr hP ht (isDefined_eq_false.1 hdef),
    rfl, rfl, rfl, ht, rfl, rfl, rfl, rfl, rfl⟩

/-- Settles O35: of the three outcomes of a step the other two leave the run going on, aborted or faulted. -/
theorem onlyAnUndefinedPcHalts : Obligations.OnlyAnUndefinedPcHalts := by
  intro s s' h hhalted
  obtain ⟨hr, P, t, hP, ht, ⟨i, u, p, -, -, hu, -, -, rfl⟩ | ⟨r, a, w, -, -, -, rfl⟩ | ⟨hi, -⟩⟩ :=
    step_outcomes h
  · rcases State.abortCheck_runState_of_running hu with hs | hs <;> simp [hs] at hhalted
  · cases hhalted
  · exact ⟨hr, P, t, hP, ht, isDefined_eq_false.2 hi⟩

/-- The abort check ends a run that goes on with a request raised (R98). -/
theorem State.abortCheck_of_request {s : State} (hsup : s.cfg.abortSupported = true)
    (hreq : s.abortReq = true) (hr : s.runState = .running) :
    s.abortCheck = { s with runState := .aborted } := by
  simp [State.abortCheck, hsup, hreq, hr]

/-- Settles O36: the instruction keeps the request and the parameters, so the check after it sees them. -/
theorem abortEndsTheRunAfterTheInstruction : Obligations.AbortEndsTheRunAfterTheInstruction := by
  intro s u P t i hr hP ht hi hsup hreq hx hu
  obtain ⟨hcfg, -, hureq, htrace, -⟩ := exec_keeps hx
  have husup : u.cfg.abortSupported = true := by rw [hcfg]; exact hsup
  have hcheck := State.abortCheck_of_request husup (hureq.trans hreq) hu
  refine ⟨?_, rfl, htrace⟩
  rw [step_of_fetch hr hP ht hi, hx, afterInstr, hcheck]

end StepsAndEnds

section InitialValues

/-- Text is read as an integer literal after trimming (R92 item 2). -/
theorem initInteger_text (t : Text) :
    initInteger (.text t) = if isIntLiteral (trim t) then some (intValue (trim t)) else none := rfl

/-- The domain of a register (R8, R26). -/
theorem holds_iff (b : RegBound) (v : Int) :
    b.holds v = true ↔ 0 ≤ v ∧ ∀ w, b = .bits w → v < 2 ^ w := by
  cases b with
  | unbounded => simp [RegBound.holds]
  | bits w => simp [RegBound.holds]

theorem entryUnrepresentable_iff {cfg : Config} {e : InitEntry} : entryUnrepresentable cfg e = true ↔
    ∃ v, initInteger e.value = some v ∧ cfg.regBound.holds v = false := by
  unfold entryUnrepresentable
  cases initInteger e.value <;> simp

end InitialValues

section Entries

variable {cfg : Config} {e : InitEntry} {entries : List InitEntry} {x x' : RegFile}
  {ws : List InitWarning}

theorem keyRegister_eq_some {r : Reg} : keyRegister e.key = some r ↔ entryNames r e = true := by
  rw [keyRegister, regOfName_eq_some, entryNames, beq_iff_eq]

/-- An entry that names a register names no other. -/
theorem entryNames_iff_eq {q r : Reg} (h : keyRegister e.key = some r) :
    entryNames q e = true ↔ q = r := by
  rw [← keyRegister_eq_some, h, Option.some.injEq, eq_comm]

/-- Which entry refuses the run (R92 item 4). -/
theorem applyEntry_eq_none_iff : applyEntry cfg x e = none ↔ cfg.negInitPolicy = .refuse ∧
    (∃ r, entryNames r e = true) ∧ entryUnrepresentable cfg e = true := by
  constructor
  · intro h
    obtain ⟨hp, r, v, hk, hv, hb⟩ := applyEntry_eq_none h
    exact ⟨hp, ⟨r, keyRegister_eq_some.1 hk⟩, entryUnrepresentable_iff.2 ⟨v, hv, hb⟩⟩
  · rintro ⟨hp, ⟨r, hr⟩, hun⟩
    obtain ⟨v, hv, hb⟩ := entryUnrepresentable_iff.1 hun
    simp [applyEntry, keyRegister_eq_some.2 hr, hv, hb, hp]

/-- The warnings of an entry that does not refuse the run (R93). -/
theorem applyEntry_warnings (h : applyEntry cfg x e = some (x', ws)) : ws = entryWarnings cfg e := by
  have hkey : regOfName (upper (trim e.key)) = keyRegister e.key := rfl
  rcases applyEntry_cases h with ⟨hk, -, rfl⟩ | ⟨r, hk, -, ⟨hv, rfl⟩ | ⟨v, hv, hb, -, rfl⟩⟩ |
    ⟨r, v, hk, hv, hb, -, rfl⟩
  · simp [entryWarnings, hkey, hk]
  · simp [entryWarnings, hkey, hk, hv]
  · simp [entryWarnings, hkey, hk, hv, hb]
  · simp [entryWarnings, hkey, hk, hv, hb]

/-- An entry gives the register it names its value and leaves the others (R92). -/
theorem applyEntry_read (h : applyEntry cfg x e = some (x', ws)) (q : Reg) :
    x'.read q = if entryNames q e = true then entryValue cfg e else x.read q := by
  rcases applyEntry_cases h with ⟨hk, rfl, -⟩ | ⟨r, hk, rfl, hbad⟩ | ⟨r, v, hk, hv, hb, rfl, -⟩
  · have hnot : ¬ entryNames q e = true := by simp [← keyRegister_eq_some, hk]
    rw [if_neg hnot]
  · have hval : entryValue cfg e = 0 := by
      rcases hbad with ⟨hv, -⟩ | ⟨v, hv, hb, -, -⟩
      · simp [entryValue, hv]
      · simp [entryValue, hv, hb]
    simp only [RegFile.read_write, entryNames_iff_eq hk, hval]
  · have hval : entryValue cfg e = v.toNat := by simp [entryValue, hv, hb]
    simp only [RegFile.read_write, entryNames_iff_eq hk, hval]

/-- Entries are the first one and then the rest, with the warnings in that order. -/
theorem applyEntries_cons (cfg : Config) (x : RegFile) (e : InitEntry) (rest : List InitEntry) :
    applyEntries cfg x (e :: rest) = (applyEntry cfg x e).bind fun p =>
      (applyEntries cfg p.1 rest).map fun q => (q.1, p.2 ++ q.2) := by
  rw [applyEntries]
  cases applyEntry cfg x e with
  | none => rfl
  | some p => cases hrest : applyEntries cfg p.1 rest <;> simp [hrest]

theorem applyEntries_cons_eq_some (h : applyEntries cfg x (e :: entries) = some (x', ws)) :
    ∃ y ws₁ ws₂, applyEntry cfg x e = some (y, ws₁) ∧ applyEntries cfg y entries = some (x', ws₂) ∧
      ws = ws₁ ++ ws₂ := by
  simp only [applyEntries_cons, Option.bind_eq_some_iff, Option.map_eq_some_iff, Prod.mk.injEq] at h
  obtain ⟨⟨y, ws₁⟩, hy, ⟨z, ws₂⟩, hz, rfl, rfl⟩ := h
  exact ⟨y, ws₁, ws₂, hy, hz, rfl⟩

/-- Entries refuse the run exactly where one of them does (R92). -/
theorem applyEntries_eq_none_iff : applyEntries cfg x entries = none ↔ cfg.negInitPolicy = .refuse ∧
    ∃ e ∈ entries, (∃ r, entryNames r e = true) ∧ entryUnrepresentable cfg e = true := by
  induction entries generalizing x with
  | nil => simp [applyEntries]
  | cons e rest ih =>
    rw [List.exists_mem_cons_iff, and_or_left, ← applyEntry_eq_none_iff (x := x), applyEntries_cons]
    cases applyEntry cfg x e with
    | none => exact iff_of_true rfl (.inl rfl)
    | some p => simp [ih (x := p.1)]

/-- The warnings of entries that do not refuse the run are theirs in their order (R93). -/
theorem applyEntries_warnings (h : applyEntries cfg x entries = some (x', ws)) :
    ws = entries.flatMap (entryWarnings cfg) := by
  induction entries generalizing x ws with
  | nil => cases h; rfl
  | cons e rest ih =>
    obtain ⟨y, ws₁, ws₂, hy, hrest, rfl⟩ := applyEntries_cons_eq_some h
    rw [List.flatMap_cons, applyEntry_warnings hy, ih hrest]

/-- A register holds the value of the last entry that names it, else what it held (R92). -/
theorem applyEntries_read (h : applyEntries cfg x entries = some (x', ws)) (q : Reg) :
    x'.read q = ((entries.reverse.find? (entryNames q)).map (entryValue cfg)).getD (x.read q) := by
  induction entries generalizing x ws with
  | nil => cases h; rfl
  | cons e rest ih =>
    obtain ⟨y, ws₁, ws₂, hy, hrest, -⟩ := applyEntries_cons_eq_some h
    rw [ih hrest, applyEntry_read hy, List.reverse_cons, List.find?_append]
    cases rest.reverse.find? (entryNames q) with
    | some e' => rfl
    | none => by_cases hq : entryNames q e = true <;> simp [hq]

end Entries

section StartOfRun

variable {s : State} {P : Program} {entries : List InitEntry}

/-- The run port goes by what the entries leave, where the machine is fresh and the program is one
(R91 to R94). -/
theorem startRun_of_wf (hr : s.runState = .idle) (hP : P.WF) : ∃ start, startLabel P = some start ∧
    (applyEntries s.cfg RegFile.zero entries = none →
      startRun s (some P) entries = .refused .unrepresentableInitialValue) ∧
    ∀ x ws, applyEntries s.cfg RegFile.zero entries = some (x, ws) →
      startRun s (some P) entries = .next (s.begin P start x ws) := by
  obtain ⟨start, -, hstart, -⟩ := startLabel_defined hP
  refine ⟨start, hstart, fun hx => ?_, fun x ws hx => ?_⟩
  · simp only [startRun, hr, hstart, if_pos hP, hx]
  · simp only [startRun, hr, hstart, if_pos hP, hx]

/-- A run whose entries are not refused starts, with the registers and the warnings of its entries. -/
theorem startRun_of_no_refusal (hr : s.runState = .idle) (hP : P.WF)
    (h : s.cfg.negInitPolicy = .refuse → ∀ e ∈ entries, (∃ r, entryNames r e = true) →
      entryUnrepresentable s.cfg e = false) :
    ∃ s', startRun s (some P) entries = .next s' ∧
      (∀ r, s'.readReg r = ((entries.reverse.find? (entryNames r)).map (entryValue s.cfg)).getD 0) ∧
      s'.diagnostics = s.diagnostics ++ entries.flatMap (entryWarnings s.cfg) := by
  obtain ⟨start, -, -, hnext⟩ := startRun_of_wf (entries := entries) hr hP
  have hsome : applyEntries s.cfg RegFile.zero entries ≠ none := by
    rw [Ne, applyEntries_eq_none_iff]
    rintro ⟨hp, e, he, hnames, hun⟩
    simp [h hp e he hnames] at hun
  obtain ⟨⟨x, ws⟩, hx⟩ := Option.ne_none_iff_exists'.1 hsome
  refine ⟨_, hnext x ws hx, fun r => ?_, ?_⟩
  · rw [State.begin_readReg, applyEntries_read hx, RegFile.read_zero]
  · rw [State.begin_diagnostics, applyEntries_warnings hx]

/-- Settles O43: by what the entries leave (`applyEntries_read`), and which of them refuse the run
(`applyEntries_eq_none_iff`). -/
theorem initialRegistersFollowTheEntries : Obligations.InitialRegistersFollowTheEntries := by
  refine ⟨fun t => ⟨fun h => ?_, fun h => ?_⟩, fun _ => rfl, holds_iff, fun s P entries hr hP =>
    ⟨fun hp hex => ?_, fun h => ?_⟩⟩
  · rw [initInteger_text, if_pos h]
  · rw [initInteger_text, h]; rfl
  · obtain ⟨start, -, hrefused, -⟩ := startRun_of_wf (entries := entries) hr hP
    exact hrefused (applyEntries_eq_none_iff.2 ⟨hp, hex⟩)
  · obtain ⟨s', hstart, hregs, -⟩ := startRun_of_no_refusal hr hP h
    exact ⟨s', hstart, hregs⟩

/-- Settles O44: by what a run that is not refused starts with. -/
theorem initialRegisterWarnings : Obligations.InitialRegisterWarnings := by
  intro s P entries hr hP h
  obtain ⟨s', hstart, -, hwarn⟩ := startRun_of_no_refusal hr hP h
  exact ⟨s', hstart, hwarn⟩

/-- Settles O45: a run port that starts a run leaves what `State.begin` sets (`startRun_cases`). -/
theorem startOfRunSetsTheMachine : Obligations.StartOfRunSetsTheMachine := by
  intro s s' program entries h
  obtain ⟨P, start, x, ws, -, hprogram, -, hstart, -, rfl⟩ := startRun_cases h
  exact ⟨P, start, hprogram, hstart, rfl, rfl, rfl, rfl, rfl, rfl⟩

theorem startRun_none (hr : s.runState = .idle) : startRun s none entries = .refused .noProgram := by
  simp only [startRun, hr]

/-- A program that no load returns is refused, whether it has a start label or not (log 8). -/
theorem startRun_of_not_wf (hr : s.runState = .idle) (hP : ¬ P.WF) :
    startRun s (some P) entries = .refused .noProgram := by
  simp only [startRun, hr]
  cases startLabel P with
  | none => rfl
  | some start => exact if_neg hP

/-- A machine state serves one run (log 9). -/
theorem startRun_of_used (program : Option Program) (hr : s.runState ≠ .idle) :
    startRun s program entries = .refused .machineStateUsed := by
  unfold startRun
  cases hs : s.runState with
  | idle => exact absurd hs hr
  | running => rfl
  | halted => rfl
  | aborted => rfl
  | faulted l r => rfl

/-- Settles O46: by the refusals of the run port, and since a program is what its serialised lines load as
(`load_serialize`). -/
theorem runsNeedALoadedProgram : Obligations.RunsNeedALoadedProgram := by
  refine ⟨fun _ _ => startRun_none, fun _ _ _ => startRun_of_not_wf, fun _ program _ => startRun_of_used program,
    fun cfg P hcfg => ⟨fun hP => ⟨_, _, load_serialize hcfg hP⟩, ?_⟩⟩
  rintro ⟨source, D, hload⟩
  exact wf_of_load hload

end StartOfRun

section Progress

variable {s s' : State}

/-- An unbounded register never overflows, so no step ends an unbounded run `FAULTED` (R102). -/
theorem step_not_faulted_of_unbounded (hb : s.cfg.regBound = .unbounded) (h : step s = .next s')
    (l : Int) (r : Reg) : s'.runState ≠ .faulted l r := by
  intro hf
  obtain ⟨P, t, w, -, -, -, hbits, -⟩ := onlyAnOverflowFaults s s' l r h hf
  cases hb.symm.trans hbits

/-- Settles O50: the invariant gives a running machine its program and its `pc`, so it steps
(`exists_step_of_running`). -/
theorem runningMachinesAlwaysStep : Obligations.RunningMachinesAlwaysStep := by
  intro s hs hr
  obtain ⟨P, t, hP, -, ht, -⟩ := (State.lifeOk_running hr).1 hs.lifeOk
  obtain ⟨s', h⟩ := exists_step_of_running hr hP ht
  refine ⟨⟨s', h⟩, fun hb => ?_⟩
  rw [SafeStep, h]
  exact step_not_faulted_of_unbounded hb h

/-- A point of an unbounded run: it goes on, with a program and a `pc`, or it has ended without a fault. -/
structure State.InUnboundedRun (s : State) : Prop where
  unbounded : s.cfg.regBound = .unbounded
  onward : (s.runState = .running ∧ ∃ P t, s.prog = some P ∧ s.pc = some t) ∨
    s.runState = .halted ∨ s.runState = .aborted

theorem State.InUnboundedRun.not_faulted (hs : s.InUnboundedRun) (l : Int) (r : Reg) :
    s.runState ≠ .faulted l r := by
  rcases hs.onward with ⟨hr, -⟩ | hr | hr <;> simp [hr]

theorem State.InUnboundedRun.of_startRun {program : Option Program} {entries : List InitEntry}
    (hb : s.cfg.regBound = .unbounded) (h : startRun s program entries = .next s') :
    s'.InUnboundedRun := by
  obtain ⟨P, start, -, -, hP, hpc, hr, -, -, hcfg⟩ := startOfRunSetsTheMachine s s' program entries h
  exact ⟨by rw [hcfg, hb], .inl ⟨hr, P, start, hP, hpc⟩⟩

/-- A step of an unbounded run stays in it: a jump leaves a `pc`, and no step overflows. -/
theorem State.InUnboundedRun.step (hs : s.InUnboundedRun) (h : step s = .next s') :
    s'.InUnboundedRun := by
  obtain ⟨hprog, hcfg, -⟩ := step_keeps h
  refine ⟨by rw [hcfg, hs.unbounded], ?_⟩
  rcases programCounterComesFromTargets s s' h with
    ⟨P, t, i, p, hP, -, -, hpc, -, hr | hr⟩ | ⟨-, hr | ⟨l, r, hf⟩⟩
  · exact .inl ⟨hr, P, p, hprog.trans hP, hpc⟩
  · exact .inr (.inr hr)
  · exact .inr (.inl hr)
  · exact absurd hf (step_not_faulted_of_unbounded hs.unbounded h l r)

/-- At a point of an unbounded run there is a step, or the run has ended and a step is refused. -/
theorem State.InUnboundedRun.step_or_ended (hs : s.InUnboundedRun) :
    (∃ s', Machine.step s = .next s') ∨ (s.ended = true ∧ Machine.step s = .refused .runEnded) := by
  rcases hs.onward with ⟨hr, P, t, hP, ht⟩ | hr | hr
  · exact .inl (exists_step_of_running hr hP ht)
  · exact .inr ⟨by simp [State.ended, hr], step_of_halted hr⟩
  · exact .inr ⟨by simp [State.ended, hr], step_of_aborted hr⟩

/-- A step and the run after it are a run of one step more. -/
theorem run_succ_of_step (k : Nat) (h : step s = .next s') :
    Host.Core.run Sys2Proof.core (k + 1) s = Host.Core.run Sys2Proof.core k s' := by
  have hcore : Sys2Proof.core.step s = .next s' := h
  simp only [Host.Core.run, hcore]

/-- A run whose first step is refused is refused. -/
theorem run_succ_of_refused (k : Nat) {reason : Refusal} (h : step s = .refused reason) :
    Host.Core.run Sys2Proof.core (k + 1) s = .refused reason := by
  have hcore : Sys2Proof.core.step s = .refused reason := h
  simp only [Host.Core.run, hcore]

/-- From a point of an unbounded run any number of steps leads to such a point, or past the run's end. -/
theorem State.InUnboundedRun.run (hs : s.InUnboundedRun) (k : Nat) :
    (∃ s', Host.Core.run Sys2Proof.core k s = .next s' ∧ s'.InUnboundedRun) ∨
      ∃ j s', j < k ∧ Host.Core.run Sys2Proof.core j s = .next s' ∧ s'.ended = true ∧
        Host.Core.run Sys2Proof.core k s = .refused .runEnded := by
  induction k generalizing s with
  | zero => exact .inl ⟨s, rfl, hs⟩
  | succ k ih =>
    rcases hs.step_or_ended with ⟨u, hu⟩ | ⟨hend, hrefused⟩
    · rw [run_succ_of_step k hu]
      rcases ih (hs.step hu) with hnext | ⟨j, s', hj, hrun, hend, hrefused⟩
      · exact .inl hnext
      · exact .inr ⟨j + 1, s', by omega, (run_succ_of_step j hu).trans hrun, hend, hrefused⟩
    · exact .inr ⟨0, s, by omega, rfl, hend, run_succ_of_refused k hrefused⟩

/-- Settles O51: a started run is an unbounded run, and stays one until it has ended
(`State.InUnboundedRun.run`). -/
theorem unboundedRunsAreTotal : Obligations.UnboundedRunsAreTotal := by
  intro s s1 program entries hb hstart k
  refine ((State.InUnboundedRun.of_startRun hb hstart).run k).imp_left ?_
  rintro ⟨s', hrun, hs'⟩
  exact ⟨s', hrun, hs'.not_faulted⟩

end Progress

section WholeRuns

/-- A machine state at construction meets the invariant, whatever its parameters (R43, R124). -/
theorem State.Inv.construct (cfg : Config) : (State.construct cfg).Inv where
  regsFit r := by
    rw [State.readReg_def, State.construct, RegFile.read_zero]
    exact holds_zero _
  lifeOk := (State.lifeOk_idle rfl).2 ⟨rfl, rfl, rfl, rfl, rfl⟩

/-- The invariant holds along a run of a fresh machine. -/
theorem State.Inv.of_run {cfg : Config} {s1 s' : State} {program : Option Program}
    {entries : List InitEntry} {k : Nat} (hstart : startRun (State.construct cfg) program entries = .next s1)
    (hrun : Host.Core.run Sys2Proof.core k s1 = .next s') : s'.Inv :=
  run_keeps stepsKeepTheInvariant ((State.Inv.construct cfg).of_startRun hstart) hrun

/-- The first step of a run does not halt it: the start label is defined (R48, R101). -/
theorem first_step_not_halted {s s1 s' : State} {program : Option Program} {entries : List InitEntry}
    (hstart : startRun s program entries = .next s1) (h : step s1 = .next s') :
    s'.runState ≠ .halted := by
  intro hhalted
  obtain ⟨P, start, x, ws, -, -, hwf, hlabel, -, rfl⟩ := startRun_cases hstart
  obtain ⟨l, i, hl, hi⟩ := startLabel_defined hwf
  obtain rfl : start = l := Option.some.inj (hlabel.symm.trans hl)
  obtain ⟨-, P', t, hP, ht, hdef⟩ := onlyAnUndefinedPcHalts _ _ h hhalted
  cases hP
  cases ht
  simp [isDefined, hi] at hdef

/-- A run that has halted took two steps or more: one of an instruction, and the halt. -/
theorem two_le_of_halted {s s1 s' : State} {program : Option Program} {entries : List InitEntry} {k : Nat}
    (hstart : startRun s program entries = .next s1) (hrun : Host.Core.run Sys2Proof.core k s1 = .next s')
    (hhalted : s'.runState = .halted) : 2 ≤ k := by
  match k, hrun with
  | 0, hrun =>
    obtain ⟨P, start, -, -, -, -, hr, -⟩ := startOfRunSetsTheMachine s s1 program entries hstart
    cases run_zero hrun
    cases hr.symm.trans hhalted
  | 1, hrun =>
    obtain ⟨u, hu, hrest⟩ := run_succ hrun
    cases run_zero hrest
    exact absurd hhalted (first_step_not_halted hstart hu)
  | k + 2, _ => omega

/-- The trace of a fresh machine's run holds the entry snapshot and one snapshot a step. -/
theorem length_trace_of_run {cfg : Config} {s1 s' : State} {program : Option Program}
    {entries : List InitEntry} {k : Nat} (hstart : startRun (State.construct cfg) program entries = .next s1)
    (hrun : Host.Core.run Sys2Proof.core k s1 = .next s') : s'.trace.length = k + 1 := by
  obtain ⟨P, start, x, ws, -, -, -, -, -, rfl⟩ := startRun_cases hstart
  obtain ⟨-, -, -, -, more, htrace, hmore⟩ := runsNeverChangeTheProgram k _ _ hrun
  simp [htrace, hmore, State.construct]

/-- Settles O54: the invariant gives the form of a halted machine's trace, and one snapshot a step its
length. -/
theorem haltedRunsHaveTheirTrace : Obligations.HaltedRunsHaveTheirTrace := by
  intro cfg s1 s' program entries k hstart hrun hhalted
  obtain ⟨P, t, before, -, -, ht, -, ⟨start, x, steps, -, rfl, hsteps⟩, htrace⟩ :=
    (State.lifeOk_halted hhalted).1 (State.Inv.of_run hstart hrun).lifeOk
  have htwo := two_le_of_halted hstart hrun hhalted
  have hlen := length_trace_of_run hstart hrun
  refine ⟨k - 1, entrySnapshot x start, steps, haltedSnapshot s'.x t, by omega, by omega, htrace, by omega,
    rfl, fun snap hsnap => ?_, rfl, rfl, ht⟩
  obtain ⟨i, -, hsnap⟩ := hsteps snap hsnap
  rw [hsnap]
  rfl

theorem State.not_running_of_ended {s : State} (h : s.ended = true) : s.runState ≠ .running := by
  intro hr
  simp [State.ended, hr] at h

/-- Settles O56: turns without a request are steps, and the loop does nothing after the run's end. -/
theorem runPortReturnsTheEndedRun : Obligations.RunPortReturnsTheEndedRun := by
  intro s s1 s' program entries k turns hstart hrun hend hk
  obtain ⟨spare, rfl⟩ := Nat.exists_eq_add_of_le hk
  rw [List.replicate_add, runPort_eq_runLoop hstart hrun,
    runLoop_not_running (State.not_running_of_ended hend)]

end WholeRuns

end Sys2Proof.Machine
end

section
/-! PROOFS. The increment and decrement instructions as their chapter describes them (R104 to R106): the ALU
off and at the bound, and what ADD and SUB do in each case. -/

namespace Sys2Proof.Machine

section Alu

/-- Off the bound, an increment adds one (R104). -/
theorem increment_of_ne_bound {b : RegBound} {v : Nat} (h : ∀ w, b = .bits w → v ≠ 2 ^ w - 1) :
    increment b v = some (v + 1) := by
  cases hv : increment b v with
  | none =>
    obtain ⟨w, hb, hbound⟩ := increment_eq_none hv
    exact absurd hbound (h w hb)
  | some u =>
    obtain ⟨rfl, -⟩ := increment_eq_some hv
    rfl

/-- At the bound, an increment has no result (R104). -/
theorem increment_bits_bound (w : Nat) : increment (.bits w) (2 ^ w - 1) = none := if_pos rfl

/-- Truncated subtraction of natural numbers is the saturating decrement of R104. -/
theorem decrement_eq_max (v : Nat) : (decrement v : Int) = max 0 ((v : Int) - 1) := by
  rw [decrement_eq_sub]
  omega

end Alu

section AddAndSub

variable {r : Reg} {t l : Int} {s : State} {w : Nat}

/-- An ADD off the bound writes its register and jumps (R105). -/
theorem exec_add_of_ne_bound (h : ∀ w, s.cfg.regBound = .bits w → s.readReg r ≠ 2 ^ w - 1) :
    exec (.add r t) s = .next ((s.writeReg r (s.readReg r + 1)).setPc t) := by
  simp only [exec, execAdd, increment_of_ne_bound h]

/-- An ADD at the bound ends the run at its label and writes nothing (R110, log 5). -/
theorem exec_add_at_bound (hb : s.cfg.regBound = .bits w) (hv : s.readReg r = 2 ^ w - 1)
    (hl : s.pc = some l) : exec (.add r t) s = .next { s with runState := .faulted l r } := by
  simp only [exec, execAdd, hb, hv, increment_bits_bound, State.raiseOverflow, hl]

/-- A SUB writes its register and jumps, whatever the register holds (R106). -/
theorem exec_sub_eq (r : Reg) (t : Int) (s : State) :
    exec (.sub r t) s = .next ((s.writeReg r (decrement (s.readReg r))).setPc t) := rfl

end AddAndSub

section Settled

/-- Settles O25: by the equations of ADD off and at the bound, the frame that every instruction keeps
(`exec_keeps`, `exec_keeps_reg`), and `decodeLine_encodeLine`. -/
theorem addIncrementsAndJumps : Obligations.AddIncrementsAndJumps := by
  refine ⟨fun r t s hne => ?_, fun _ _ _ _ _ => exec_add_at_bound,
    fun _ l r t hcfg => decodeLine_encodeLine hcfg l (.add r t)⟩
  have hx := exec_add_of_ne_bound (t := t) hne
  obtain ⟨hcfg, hprog, hreq, htrace, hdiag⟩ := exec_keeps hx
  exact ⟨_, hx, by simp, fun _ => exec_keeps_reg hx, rfl, hprog, rfl, hreq, htrace, hdiag, hcfg⟩

/-- Settles O26: by the equation of SUB, with the value that it writes read as R106 states it
(`decrement_eq_max`), the frame that every instruction keeps, and `decodeLine_encodeLine`. -/
theorem subDecrementsAndJumps : Obligations.SubDecrementsAndJumps := by
  refine ⟨fun r t s => ?_, fun _ l r t hcfg => decodeLine_encodeLine hcfg l (.sub r t)⟩
  have hx := exec_sub_eq r t s
  have hval : (((s.writeReg r (decrement (s.readReg r))).setPc t).readReg r : Int) =
      max 0 ((s.readReg r : Int) - 1) := by
    rw [State.setPc_readReg, State.readReg_writeReg_same, decrement_eq_max]
  obtain ⟨hcfg, hprog, hreq, htrace, hdiag⟩ := exec_keeps hx
  exact ⟨_, hx, hval, fun _ => exec_keeps_reg hx, rfl, hprog, rfl, hreq, htrace, hdiag, hcfg⟩

end Settled

end Sys2Proof.Machine
end

section
/-! PROOFS. The test instruction as its chapter describes it (R107): which target ZER goes to, and that it
changes the program counter alone. -/

namespace Sys2Proof.Machine

section Zer

/-- A ZER moves the program counter, and its register alone decides which target it goes to (R107). -/
theorem exec_zer_eq (r : Reg) (t0 t1 : Int) (s : State) :
    exec (.zer r t0 t1) s = .next (s.setPc (if s.readReg r = 0 then t0 else t1)) := by
  simp only [exec, execZer, isZero_iff]

end Zer

section Settled

/-- Settles O27: by the equation of ZER, whose one update is `State.setPc`, in the two cases of its test; the
encoding by `decodeLine_encodeLine`. -/
theorem zerTestsAndBranches : Obligations.ZerTestsAndBranches := by
  refine ⟨fun r t0 t1 s => ?_, fun _ l r t0 t1 hcfg => decodeLine_encodeLine hcfg l (.zer r t0 t1)⟩
  have hx := exec_zer_eq r t0 t1 s
  obtain ⟨hcfg, hprog, hreq, htrace, hdiag⟩ := exec_keeps hx
  refine ⟨_, hx, fun hzero => ?_, fun hne => ?_, State.setPc_readReg s _, hprog, rfl, hreq, htrace, hdiag,
    hcfg⟩
  · rw [State.setPc_pc, if_pos hzero]
  · rw [State.setPc_pc, if_neg hne]

end Settled

end Sys2Proof.Machine
end

section
/-! PROOFS. The end of a run as the exceptions chapter describes it (R109 to R113): the step of an ADD that
overflows, and that no step follows a run's end. -/

namespace Sys2Proof.Machine

section Overflow

/-- A running ADD at the bound emits its snapshot and ends the run (R110); no abort check follows a fault
(R113). -/
theorem step_add_at_bound {s : State} {P : Program} {t u : Int} {r : Reg} {w : Nat}
    (hr : s.runState = .running) (hP : s.prog = some P) (ht : s.pc = some t)
    (hi : fetch P t = some (.add r u)) (hb : s.cfg.regBound = .bits w) (hv : s.readReg r = 2 ^ w - 1) :
    step s = .next { s.emitStep t (.add r u) with runState := .faulted t r } := by
  have hx := exec_add_at_bound (s := s.emitStep t (.add r u)) (t := u) hb hv ht
  rw [step_of_fetch hr hP ht hi, hx, afterInstr, State.abortCheck_of_not_running (by simp)]

end Overflow

section EndedRuns

/-- Only a running machine steps (R36, R111). -/
theorem step_ne_next_of_ended {s : State} (h : s.ended = true) (s' : State) : step s ≠ .next s' := by
  intro hstep
  obtain ⟨hr, -⟩ := step_cases hstep
  exact State.not_running_of_ended h hr

end EndedRuns

section Settled

/-- Settles O38: the overflowing step writes the snapshot and the run state alone (`step_add_at_bound`), and a
step of the `FAULTED` machine it leaves answers the fault (`step_of_faulted`). -/
theorem overflowEndsTheRunFaulted : Obligations.OverflowEndsTheRunFaulted := by
  intro s P t u r w hr hP ht hi hb hv
  exact ⟨_, step_add_at_bound hr hP ht hi hb hv, rfl, rfl, rfl, rfl, rfl, rfl, rfl, rfl, rfl,
    step_of_faulted rfl⟩

/-- Settles O40: by the equation of a step for each end of a run, and since only a running machine steps. -/
theorem endedRunsTakeNoStep : Obligations.EndedRunsTakeNoStep := by
  intro s
  refine ⟨fun _ _ => step_of_faulted, fun hend => ?_, step_ne_next_of_ended⟩
  rcases hend with hhalted | haborted
  · exact step_of_halted hhalted
  · exact step_of_aborted haborted

end Settled

end Sys2Proof.Machine
end

section
/-! PROOFS. The machine at construction as the reset chapter describes it (R124): every register is 0, no
program is bound, no run has started, and nothing is requested or emitted. -/

namespace Sys2Proof.Machine

section Construction

@[simp] theorem State.construct_readReg (cfg : Config) (r : Reg) : (State.construct cfg).readReg r = 0 := by
  rw [State.readReg_def, State.construct, RegFile.read_zero]

/-- Reset is construction, under the default parameters (R124). -/
theorem State.eq_construct_of_reset_or {s : State} (h : s = State.reset ∨ ∃ cfg, s = State.construct cfg) :
    ∃ cfg, s = State.construct cfg :=
  h.elim (fun hreset => ⟨Config.default, hreset⟩) id

end Construction

section Settled

/-- Settles O42: reset is one construction (`State.eq_construct_of_reset_or`), every register of a construction
reads 0 (`State.construct_readReg`), and its other fields are the constants that construction writes. -/
theorem constructionLeavesTheResetValues : Obligations.ConstructionLeavesTheResetValues := by
  intro s hs
  obtain ⟨cfg, rfl⟩ := State.eq_construct_of_reset_or hs
  exact ⟨State.construct_readReg cfg, rfl, rfl, rfl, rfl, rfl, rfl⟩

end Settled

end Sys2Proof.Machine
end
